-- ==== Sys2Proof/Word.lean ====
section
/-! DEFINITION. The words of the b64-builtin CORE (spec 00_scope.md R9, R10) and the names of its two units (R1). -/

namespace Sys2Proof

/-- One byte: an encoder input, an encoded character, a decoder input or output (R9). -/
abbrev Byte := BitVec 8

/-- A 6-bit symbol: an alphabet index or a decoded alphabet value (R9). -/
abbrev Symbol := BitVec 6

/-- A command word `cmd[9:0]` (R58). -/
abbrev CmdWord := BitVec 10

/-- An entry `e[6:0]` of the inverse-alphabet ROM (R40, R41). -/
abbrev InvEntry := BitVec 7

/-- The two units of the hardware (R1): the base64 encoder ENC and the base64 decoder DEC. -/
inductive UnitId where
  | enc
  | dec
  deriving DecidableEq, Repr

end Sys2Proof
end

