-- ==== Sys2Proof/Config.lean ====
section
/-! DEFINITION. What an implementation of the CORE fixes (00_scope.md R6) and the one value the spec leaves
open (20_memory.md R47). -/

namespace Sys2Proof

/-- The queue capacities `ENC.OUTQ_DEPTH` and `DEC.OUTQ_DEPTH` (R6, D7, I9). They are a parameter of the model:
`State` carries them and nothing writes them (log entry 4). -/
structure Config where
  encDepth : Nat
  decDepth : Nat
  deriving DecidableEq, Repr

/-- R6: "the reference value is 4 for both". -/
def Config.reference : Config := ⟨4, 4⟩

/-- The byte on `out_data` of a unit while its `out_valid` is 0: R47 leaves it unspecified ("a model treats it
as a draw and no rule reads it"). A FREE VALUE: no body, one draw for each unit and each value of the counter
`State.env.draws` (log entry 6). -/
opaque Config.freeOutData : UnitId → Nat → Byte

end Sys2Proof
end

