-- ==== Sys2Proof/Syntax.lean ====
section
/-! DEFINITION. The commands of the CORE: one constructor for each row of spec/opcode_table.json. -/

namespace Sys2Proof

/-- A command of one of the two units (R58, R59). Every constructor carries the whole `DATA` field of its word,
also where its meaning ignores it (R60, R71), so that a word and its command determine each other. -/
inductive Instr where
  /-- ENC.FEED: consume one raw byte (R76). -/
  | encFeed (data : Byte)
  /-- ENC.FINISH: end of stream (R80); DATA is ignored (R60). -/
  | encFinish (data : Byte)
  /-- ENC.RSVD00: reserved OP 2'b00, illegal (R70, R107). -/
  | encRsvd00 (data : Byte)
  /-- ENC.RSVD11: reserved OP 2'b11, illegal (R70, R107). -/
  | encRsvd11 (data : Byte)
  /-- DEC.FEED: consume one raw input byte (R91). -/
  | decFeed (data : Byte)
  /-- DEC.FINISH: end of stream (R97); DATA is ignored (R60). -/
  | decFinish (data : Byte)
  /-- DEC.RSVD00: reserved OP 2'b00, illegal (R70, R107). -/
  | decRsvd00 (data : Byte)
  /-- DEC.RSVD11: reserved OP 2'b11, illegal (R70, R107). -/
  | decRsvd11 (data : Byte)
  deriving DecidableEq, Repr

/-- The unit whose command this is. -/
def Instr.unit : Instr → UnitId
  | .encFeed _ => .enc
  | .encFinish _ => .enc
  | .encRsvd00 _ => .enc
  | .encRsvd11 _ => .enc
  | .decFeed _ => .dec
  | .decFinish _ => .dec
  | .decRsvd00 _ => .dec
  | .decRsvd11 _ => .dec

/-- The operand field `DATA` (R58, R60). -/
def Instr.data : Instr → Byte
  | .encFeed b => b
  | .encFinish b => b
  | .encRsvd00 b => b
  | .encRsvd11 b => b
  | .decFeed b => b
  | .decFinish b => b
  | .decRsvd00 b => b
  | .decRsvd11 b => b

end Sys2Proof
end

