-- ==== Sys2Proof/WellFormed.lean ====
section
/-! DEFINITION. What the types do not already check: a command stands on the port of its own unit, a legal
command has an operation that is not reserved, and the queue capacities satisfy 00_scope.md R6. -/

namespace Sys2Proof

/-- A command can stand only on the port of its own unit: the ports are separate instances (R61). -/
def Instr.wellFormedOn (u : UnitId) (i : Instr) : Bool := i.unit == u

/-- R70: the commands with `OP` 2'b00 or 2'b11 are illegal on both units; the others are legal for every
`DATA` (R71). -/
def Instr.legal : Instr → Bool
  | .encFeed _ => true
  | .encFinish _ => true
  | .encRsvd00 _ => false
  | .encRsvd11 _ => false
  | .decFeed _ => true
  | .decFinish _ => true
  | .decRsvd00 _ => false
  | .decRsvd11 _ => false

/-- R6: "It must satisfy `OUTQ_DEPTH >= 3` for the encoder and `OUTQ_DEPTH >= 1` for the decoder". -/
abbrev Config.Wf (c : Config) : Prop := 3 ≤ c.encDepth ∧ 1 ≤ c.decDepth

end Sys2Proof
end

