-- ==== Sys2Proof/Decode.lean ====
section
/-! DEFINITION. The decoder of command words, total on all 1024 words of each port (30_encoding.md R58, R59, R69),
and after it the encoder written from the same tables. -/

namespace Sys2Proof

/-! ### Fields of a command word (R58) -/

/-- `cmd[9:8]`, the field `OP` (R58). -/
def cmdOp (w : CmdWord) : BitVec 2 := w.extractLsb' 8 2

/-- `cmd[7:0]`, the field `DATA` (R58, R60). -/
def cmdData (w : CmdWord) : Byte := w.extractLsb' 0 8

/-- `{OP, DATA}` (R58). -/
def cmdWord (op : BitVec 2) (data : Byte) : CmdWord := op ++ data

/-! ### The decoder -/

/-- The decode of R69: a function of the unit whose port carries the word and of the word, total on all 1024
words of each unit. The last branch is `OP = 2'b11`. -/
def decode (u : UnitId) (w : CmdWord) : Instr :=
  match u with
  | .enc =>
    if cmdOp w = 0b01#2 then .encFeed (cmdData w)
    else if cmdOp w = 0b10#2 then .encFinish (cmdData w)
    else if cmdOp w = 0b00#2 then .encRsvd00 (cmdData w)
    else .encRsvd11 (cmdData w)
  | .dec =>
    if cmdOp w = 0b01#2 then .decFeed (cmdData w)
    else if cmdOp w = 0b10#2 then .decFinish (cmdData w)
    else if cmdOp w = 0b00#2 then .decRsvd00 (cmdData w)
    else .decRsvd11 (cmdData w)

/-! ### The encoder of commands -/

/-- The value of `OP` of a command (R59). -/
def Instr.op : Instr → BitVec 2
  | .encFeed _ => 0b01#2
  | .encFinish _ => 0b10#2
  | .encRsvd00 _ => 0b00#2
  | .encRsvd11 _ => 0b11#2
  | .decFeed _ => 0b01#2
  | .decFinish _ => 0b10#2
  | .decRsvd00 _ => 0b00#2
  | .decRsvd11 _ => 0b11#2

/-- The command word of a command, to be presented on the port of `i.unit` (R58, R59). -/
def encode (i : Instr) : CmdWord := cmdWord i.op i.data

/-! ### The opcode table -/

/-- A row of spec/opcode_table.json: a word is the row's when `word & mask = value`. -/
structure OpcodeRow where
  unit  : UnitId
  value : CmdWord
  mask  : CmdWord
  deriving DecidableEq, Repr

/-- Does a word of the port `u` match the row? -/
def OpcodeRow.hits (r : OpcodeRow) (u : UnitId) (w : CmdWord) : Bool := r.unit == u && (w &&& r.mask) == r.value

/-- The row of the opcode table that a command belongs to. -/
def Instr.row : Instr → OpcodeRow
  | .encFeed _ => ⟨.enc, 0x100#10, 0x300#10⟩
  | .encFinish _ => ⟨.enc, 0x200#10, 0x300#10⟩
  | .encRsvd00 _ => ⟨.enc, 0x000#10, 0x300#10⟩
  | .encRsvd11 _ => ⟨.enc, 0x300#10, 0x300#10⟩
  | .decFeed _ => ⟨.dec, 0x100#10, 0x300#10⟩
  | .decFinish _ => ⟨.dec, 0x200#10, 0x300#10⟩
  | .decRsvd00 _ => ⟨.dec, 0x000#10, 0x300#10⟩
  | .decRsvd11 _ => ⟨.dec, 0x300#10, 0x300#10⟩

/-- The eight rows of spec/opcode_table.json, in its order: four for each unit. R69 speaks of "the same six rows per
unit", against the table itself and the four cases of R69's own pseudocode. DESIGN CHOICE: the model follows the table
(log entry 17). -/
def opcodeRows : List OpcodeRow :=
  [(Instr.encFeed 0).row, (Instr.encFinish 0).row, (Instr.encRsvd00 0).row, (Instr.encRsvd11 0).row]
    ++ [(Instr.decFeed 0).row, (Instr.decFinish 0).row, (Instr.decRsvd00 0).row, (Instr.decRsvd11 0).row]

/-! ### Numbers as presentations of a word on a port

The command word does not say which unit it is for: the same ten bits are a command of ENC on ENC's port and of
DEC on DEC's (R59, R61). A number names a port and a word by this model's own convention (log entry 1): bits 9:0
are the command word as the opcode table numbers them, and bit 10 selects the port, 0 for ENC and 1 for DEC. -/

/-- Why a number is not a presentation of a command word. -/
inductive DecodeError where
  /-- The number has a bit above bit 10: a command word has ten bits (R58) and there are two ports (R61).
  Safe: no hardware input corresponds to it. -/
  | widerThanPortAndWord
  deriving DecidableEq, Repr

/-- The port and the command word a number names (log entry 1). -/
def portWord (n : Nat) : Except DecodeError (UnitId × CmdWord) :=
  if n < 2 ^ 10 then .ok (.enc, BitVec.ofNat 10 n)
  else if n < 2 ^ 11 then .ok (.dec, BitVec.ofNat 10 n)
  else .error .widerThanPortAndWord

/-- The number of a port and a word: `portWord`'s other direction. -/
def portNumber (u : UnitId) (w : CmdWord) : Nat :=
  match u with
  | .enc => w.toNat
  | .dec => 2 ^ 10 + w.toNat

/-- The command a number stands for, or the reason it stands for none. -/
def decodeNumber (n : Nat) : Except DecodeError Instr :=
  match portWord n with
  | .ok (u, w) => .ok (decode u w)
  | .error e => .error e

/-- The instruction the decoder reads from the low `nbits` bits of `w`, numbered as spec/opcode_table.json
numbers them; every bit from `nbits` up is 0. -/
def decodeTableWord (nbits w : Nat) : Option Instr :=
  match decodeNumber (w % 2 ^ nbits) with
  | .ok i => some i
  | .error _ => none

end Sys2Proof
end

