-- ==== Sys2Proof/Machine/Operands.lean ====
section
/-! DEFINITION. The bit fields of an input byte and of a symbol that the commands use (R10, R60; 40_encoder.md R77 to
R79, 41_decoder.md R93 to R96). `x.extractLsb' lo n` is the field `x[lo+n-1:lo]`. -/

namespace Sys2Proof.Machine

/-! ### Fields of an encoder input byte `c` -/

/-- `c[7:2]`, the document's `c >> 2` (R77). -/
def encTop6 (c : Byte) : Symbol := c.extractLsb' 2 6

/-- `{c[1:0], 4'b0000}`, the document's `(c & 0x3) << 4` (R77). -/
def encLow2Carry (c : Byte) : Symbol := c.extractLsb' 0 2 ++ 0b0000#4

/-- `zext_6(c[7:4])`, the document's `c >> 4` (R78). -/
def encTop4 (c : Byte) : Symbol := (c.extractLsb' 4 4).setWidth 6

/-- `{c[3:0], 2'b00}`, the document's `(c & 0xF) << 2` (R78). -/
def encLow4Carry (c : Byte) : Symbol := c.extractLsb' 0 4 ++ 0b00#2

/-- `zext_6(c[7:6])`, the document's `c >> 6` (R79). -/
def encTop2 (c : Byte) : Symbol := (c.extractLsb' 6 2).setWidth 6

/-- `c[5:0]`, the document's `c & 0x3F` (R79). -/
def encLow6 (c : Byte) : Symbol := c.extractLsb' 0 6

/-! ### Fields of a decoder symbol `d` -/

/-- `trunc_8(d << 2)` (R93). -/
def decCarry6 (d : Symbol) : Byte := d.setWidth 8 <<< 2

/-- `zext_8(d[5:4])`, the document's `d >> 4` (R94). -/
def decTop2 (d : Symbol) : Byte := (d.extractLsb' 4 2).setWidth 8

/-- `trunc_8(d << 4)` (R94). -/
def decCarry4 (d : Symbol) : Byte := d.setWidth 8 <<< 4

/-- `zext_8(d[5:2])`, the document's `d >> 2` (R95). -/
def decTop4 (d : Symbol) : Byte := (d.extractLsb' 2 4).setWidth 8

/-- `trunc_8(d << 6)` (R95). -/
def decCarry2 (d : Symbol) : Byte := d.setWidth 8 <<< 6

/-- `zext_8(d)` (R96). -/
def decAll6 (d : Symbol) : Byte := d.setWidth 8

end Sys2Proof.Machine
end

