-- ==== Sys2Proof/Machine/State.lean ====
section
/-! DEFINITION. The state of the CORE (10_state.md R14 to R36) as plain data, the inputs of its clock edges, and the
state right after reset (R30). -/

namespace Sys2Proof.Machine

/-- `ENC.GSTATE`: the number of input bytes of the current 3-byte group consumed. Its legal values are 0, 1 and
2 (R15); 3 is unreachable and has no behaviour (R16), so there is no constructor for it (R36, log entry 7). -/
inductive EncGroup where
  | g0
  | g1
  | g2
  deriving DecidableEq, Repr

/-- The 2-bit value of `ENC.GSTATE` (R15, R27). -/
def EncGroup.bits : EncGroup → BitVec 2
  | .g0 => 0b00#2
  | .g1 => 0b01#2
  | .g2 => 0b10#2

/-- `DEC.GSTATE`: the number of symbols of the current 4-symbol group consumed, 0 to 3 (R20). -/
inductive DecGroup where
  | g0
  | g1
  | g2
  | g3
  deriving DecidableEq, Repr

/-- The 2-bit value of `DEC.GSTATE` (R20, R27). -/
def DecGroup.bits : DecGroup → BitVec 2
  | .g0 => 0b00#2
  | .g1 => 0b01#2
  | .g2 => 0b10#2
  | .g3 => 0b11#2

/-- `U.PHASE` (R24): RUN accepts commands, DONE has executed FINISH, FAULT has executed an illegal command.
The value 2'b11 is unreachable and has no constructor (log entry 7). -/
inductive Phase where
  | run
  | done
  | fault
  deriving DecidableEq, Repr

/-- The 2-bit value of `U.PHASE` (R24). -/
def Phase.bits : Phase → BitVec 2
  | .run => 0b00#2
  | .done => 0b01#2
  | .fault => 0b10#2

/-- `U.ERRC` (R25, R105): the cause code of the fault. Codes 2'b10 and 2'b11 are never written and have no
constructor (log entry 7). -/
inductive ErrCode where
  | noError
  | illegalOp
  deriving DecidableEq, Repr

/-- The 2-bit value of `U.ERRC` (R25). -/
def ErrCode.bits : ErrCode → BitVec 2
  | .noError => 0b00#2
  | .illegalOp => 0b01#2

/-- The registers and the output queue of one unit (R14, R36), for a group state `G` and an accumulator of `w`
bits. The head of `outq` is the oldest byte (R45). -/
structure UnitRegs (G : Type) (w : Nat) where
  gstate : G
  next   : BitVec w
  phase  : Phase
  errc   : ErrCode
  outq   : List Byte
  deriving DecidableEq, Repr

/-- The encoder's state: `ENC.NEXT` has 6 bits (R17). -/
abbrev EncUnit := UnitRegs EncGroup 6

/-- The decoder's state: `DEC.NEXT` has 8 bits (R22). -/
abbrev DecUnit := UnitRegs DecGroup 8

/-- R30: the encoder after reset. -/
def EncUnit.reset : EncUnit := ⟨.g0, 0#6, .run, .noError, []⟩

/-- R30: the decoder after reset. -/
def DecUnit.reset : DecUnit := ⟨.g0, 0#8, .run, .noError, []⟩

/-- The input pins of one unit at a rising edge of its clock (R61). -/
structure Pins where
  rst      : Bool
  cmdValid : Bool
  cmd      : CmdWord
  outReady : Bool
  deriving DecidableEq, Repr

/-- One clock event: for each unit, the pins at a rising edge of its `clk`, or `none` where that unit has no
edge (each unit has a clock of its own, R61 and D2; log entry 3). -/
structure Tick where
  enc : Option Pins
  dec : Option Pins
  deriving DecidableEq, Repr

/-- The MODEL'S OWN fields, which stand for the host (log entries 2, 6, 8). -/
structure Env where
  /-- The inputs still to come, the next one first. -/
  ticks     : List Tick
  /-- The bytes popped from ENC since the reset that began its run (R48, R130). -/
  encStream : List Byte
  /-- The bytes popped from DEC since the reset that began its run (R48, R130). -/
  decStream : List Byte
  /-- The counter of the draws of `Config.freeOutData` (R47). -/
  draws     : Nat
  deriving DecidableEq, Repr

/-- The whole machine: the two units (R14), the capacities of their queues (R6) and the host's side. -/
structure State where
  cfg : Config
  enc : EncUnit
  dec : DecUnit
  env : Env
  deriving DecidableEq, Repr

/-- Reasons for the machine to stop with a fault: NONE. The one exception of the hardware, `ILLEGAL_OP`, is a next
state (R107), and every command is total on its operands (R89, R103), so no step and no meaning ever answers a
fault (log entry 15). Safe and unsafe do not arise. -/
inductive Fault where
  deriving DecidableEq, Repr

/-- Reasons for the machine to have no meaning for a command. -/
inductive Refusal where
  /-- Raised by an arm of `exec` whose command has no meaning yet: by none, since all eight have theirs. Safe. -/
  | notModelled (mnemonic : String)
  deriving DecidableEq, Repr

/-- The machine right after both units were reset (R30, R122), with the reference capacities (R6, log entry 4) and
with nothing presented by the host yet (log entries 2, 12). -/
def State.reset : State where
  cfg := Config.reference
  enc := EncUnit.reset
  dec := DecUnit.reset
  env := ⟨[], [], [], 0⟩

end Sys2Proof.Machine
end

