-- ==== Sys2Proof/Machine/Ops.lean ====
section
/-! DEFINITION. The shared operations on a unit's registers and queue: register writes, Emit (00_scope.md R12), fault
entry and the way out of it (60_exceptions.md R107, R110), the handshake (30_encoding.md R62 to R64, R68) and
reset (70_reset_and_hazards.md R122). -/

namespace Sys2Proof.Machine

/-- One answer of the machine. -/
abbrev Answer := Host.Outcome State Fault Refusal

/-- Go on from a next state; a fault or a refusal stays. -/
def andThen (o : Answer) (f : State → Answer) : Answer :=
  match o with
  | .next s => f s
  | .fault r => .fault r
  | .refused r => .refused r

section Registers

variable {G : Type} {w : Nat}

/-- `U.GSTATE <- g` (R12). -/
def UnitRegs.setGState (u : UnitRegs G w) (g : G) : UnitRegs G w := { u with gstate := g }

/-- `U.NEXT <- v` (R12). -/
def UnitRegs.setNext (u : UnitRegs G w) (v : BitVec w) : UnitRegs G w := { u with next := v }

/-- `U.PHASE <- p` (R12). -/
def UnitRegs.setPhase (u : UnitRegs G w) (p : Phase) : UnitRegs G w := { u with phase := p }

/-- `U.ERRC <- e` (R12). -/
def UnitRegs.setErrc (u : UnitRegs G w) (e : ErrCode) : UnitRegs G w := { u with errc := e }

/-- `Emit(v)`: append `v` at the tail of the queue (R12, R45). -/
def UnitRegs.emit (u : UnitRegs G w) (v : Byte) : UnitRegs G w := { u with outq := u.outq ++ [v] }

/-- Remove the head of the queue (R64). -/
def UnitRegs.dropHead (u : UnitRegs G w) : UnitRegs G w := { u with outq := u.outq.tail }

/-- The end of a run, common to both FINISH commands (R80, R97): `GSTATE <- 0`, `NEXT <- 0`, `PHASE <- DONE`. -/
def UnitRegs.endRun (u : UnitRegs G w) (g0 : G) : UnitRegs G w :=
  ((u.setGState g0).setNext 0).setPhase .done

/-- `raise Fault(code)`, the whole of fault entry (R107): `PHASE <- FAULT`, `ERRC <- code`, nothing else. -/
def UnitRegs.raiseFault (u : UnitRegs G w) (code : ErrCode) : UnitRegs G w :=
  (u.setPhase .fault).setErrc code

/-- `reset(U)` (R122), which is also the only way out of FAULT and DONE (R110, R111): every register and the
queue get their reset values, whatever they held. -/
def UnitRegs.resetUnit (_u : UnitRegs G w) (g0 : G) : UnitRegs G w :=
  { gstate := g0, next := 0, phase := .run, errc := .noError, outq := [] }

/-- The free entries of the queue, `U.OUTQ_DEPTH - len(U.OUTQ)` (R62). -/
def UnitRegs.free (u : UnitRegs G w) (depth : Nat) : Nat := depth - u.outq.length

/-- The part of `cmd_ready` that does not look at `rst` (R62): `PHASE = RUN` and at least `maxEmit` free entries. -/
def UnitRegs.accepting (u : UnitRegs G w) (depth maxEmit : Nat) : Bool :=
  u.phase == .run && decide (maxEmit ≤ u.free depth)

/-- `len(U.OUTQ) > 0`: the part of `out_valid` that does not look at `rst` (R64). -/
def UnitRegs.hasByte (u : UnitRegs G w) : Bool := decide (0 < u.outq.length)

end Registers

/-- `ENC.MAXEMIT` (R63). -/
def encMaxEmit : Nat := 3

/-- `DEC.MAXEMIT` (R63). -/
def decMaxEmit : Nat := 1

/-- The encoder accepts a command presented in a cycle with `rst = 0` (R62). -/
def State.encReady (s : State) : Bool := s.enc.accepting s.cfg.encDepth encMaxEmit

/-- The decoder accepts a command presented in a cycle with `rst = 0` (R62). -/
def State.decReady (s : State) : Bool := s.dec.accepting s.cfg.decDepth decMaxEmit

/-- Replace the encoder's state. -/
def State.setEnc (s : State) (u : EncUnit) : State := { s with enc := u }

/-- Replace the decoder's state. -/
def State.setDec (s : State) (u : DecUnit) : State := { s with dec := u }

/-- Replace the host's record of the encoder's run. -/
def State.setEncStream (s : State) (bs : List Byte) : State := { s with env := { s.env with encStream := bs } }

/-- Replace the host's record of the decoder's run. -/
def State.setDecStream (s : State) (bs : List Byte) : State := { s with env := { s.env with decStream := bs } }

/-- Presenting a command to the encoder in a cycle with `rst = 0`: it is executed exactly when it is accepted
(R62), atomically (R13), and otherwise has no effect (R68, log entry 9). -/
def State.encPresent (s : State) (effect : EncUnit → EncUnit) : Answer :=
  if s.encReady then .next (s.setEnc (effect s.enc)) else .next s

/-- Presenting a command to the decoder in a cycle with `rst = 0` (R62, R68, log entry 9). -/
def State.decPresent (s : State) (effect : DecUnit → DecUnit) : Answer :=
  if s.decReady then .next (s.setDec (effect s.dec)) else .next s

/-- The pop of an encoder byte (R64): the head is removed and delivered to the host. -/
def State.encPop (s : State) : State :=
  (s.setEnc s.enc.dropHead).setEncStream (s.env.encStream ++ s.enc.outq.take 1)

/-- The pop of a decoder byte (R64). -/
def State.decPop (s : State) : State :=
  (s.setDec s.dec.dropHead).setDecStream (s.env.decStream ++ s.dec.outq.take 1)

/-- A reset edge of the encoder (R121, R122): a new run begins, with an empty record of the output (log entry 8). -/
def State.resetEnc (s : State) : State :=
  (s.setEnc (s.enc.resetUnit .g0)).setEncStream []

/-- A reset edge of the decoder (R121, R122, log entry 8). -/
def State.resetDec (s : State) : State :=
  (s.setDec (s.dec.resetUnit .g0)).setDecStream []

end Sys2Proof.Machine
end

