-- ==== Sys2Proof/Machine/Rom.lean ====
section
/-! DEFINITION. The two constant ROMs of the CORE (20_memory.md R37 to R44). -/

namespace Sys2Proof.Machine

/-- `ALPHA[0]` to `ALPHA[15]` (R38). -/
def alphaTable0 : List Byte :=
  [0x41#8, 0x42#8, 0x43#8, 0x44#8, 0x45#8, 0x46#8, 0x47#8, 0x48#8,
   0x49#8, 0x4A#8, 0x4B#8, 0x4C#8, 0x4D#8, 0x4E#8, 0x4F#8, 0x50#8]

/-- `ALPHA[16]` to `ALPHA[31]` (R38). -/
def alphaTable1 : List Byte :=
  [0x51#8, 0x52#8, 0x53#8, 0x54#8, 0x55#8, 0x56#8, 0x57#8, 0x58#8,
   0x59#8, 0x5A#8, 0x61#8, 0x62#8, 0x63#8, 0x64#8, 0x65#8, 0x66#8]

/-- `ALPHA[32]` to `ALPHA[47]` (R38). -/
def alphaTable2 : List Byte :=
  [0x67#8, 0x68#8, 0x69#8, 0x6A#8, 0x6B#8, 0x6C#8, 0x6D#8, 0x6E#8,
   0x6F#8, 0x70#8, 0x71#8, 0x72#8, 0x73#8, 0x74#8, 0x75#8, 0x76#8]

/-- `ALPHA[48]` to `ALPHA[63]` (R38); indices 62 and 63 are `+` and `/` (R7). -/
def alphaTable3 : List Byte :=
  [0x77#8, 0x78#8, 0x79#8, 0x7A#8, 0x30#8, 0x31#8, 0x32#8, 0x33#8,
   0x34#8, 0x35#8, 0x36#8, 0x37#8, 0x38#8, 0x39#8, 0x2B#8, 0x2F#8]

/-- The 64 entries of ALPHA, one per index (R38). -/
def alphaTable : List Byte := alphaTable0 ++ alphaTable1 ++ alphaTable2 ++ alphaTable3

/-- `ALPHA[i]` (R37). The list has 64 entries, so the default is never read. -/
def alpha (i : Symbol) : Byte := alphaTable.getD i.toNat 0#8

/-- The padding character `=` (R8). -/
def padByte : Byte := 0x3D#8

/-- `{IGN, VAL}` (R41). -/
def invEntry (ign : Bool) (val : Symbol) : InvEntry := BitVec.ofBool ign ++ val

/-- `INV[b]` (R40, R42): the five rows of R42's table in its order. -/
def inv (b : Byte) : InvEntry :=
  if 0x41#8 ≤ b ∧ b ≤ 0x5A#8 then invEntry false ((b - 0x41#8).setWidth 6)
  else if 0x61#8 ≤ b ∧ b ≤ 0x7A#8 then invEntry false ((b - 0x61#8 + 26#8).setWidth 6)
  else if 0x30#8 ≤ b ∧ b ≤ 0x39#8 then invEntry false ((b - 0x30#8 + 52#8).setWidth 6)
  else if b = 0x2B#8 then invEntry false 62#6
  else if b = 0x2F#8 then invEntry false 63#6
  else invEntry true 0#6

/-- Bit 6 of an entry, `IGN` (R41). -/
def invIgn (e : InvEntry) : Bool := e.getLsbD 6

/-- Bits 5:0 of an entry, `VAL` (R41). -/
def invVal (e : InvEntry) : Symbol := e.extractLsb' 0 6

/-- The classification of a raw input byte (R90): `none` where it is ignored, else the symbol. -/
def symbolOf (b : Byte) : Option Symbol :=
  if invIgn (inv b) then none else some (invVal (inv b))

end Sys2Proof.Machine
end

