-- ==== Sys2Proof/Machine/Decoder.lean ====
section
/-! DEFINITION. The meanings of the decoder's commands (41_decoder.md R90 to R104; the reserved ones 60_exceptions.md
R107). -/

namespace Sys2Proof.Machine

/-- The effect of a symbol `d`: R93 in state 0, R94 in state 1, R95 in state 2, R96 in state 3, where `DEC.NEXT`
is not written. -/
def decSymbolEffect (d : Symbol) (u : DecUnit) : DecUnit :=
  match u.gstate with
  | .g0 => (u.setNext (decCarry6 d)).setGState .g1
  | .g1 => ((u.emit (u.next ||| decTop2 d)).setNext (decCarry4 d)).setGState .g2
  | .g2 => ((u.emit (u.next ||| decTop4 d)).setNext (decCarry2 d)).setGState .g3
  | .g3 => (u.emit (u.next ||| decAll6 d)).setGState .g0

/-- The effect of an accepted `DEC.FEED b` (R91): none at all where `b` is ignored (R92). -/
def decFeedEffect (b : Byte) (u : DecUnit) : DecUnit :=
  match symbolOf b with
  | none => u
  | some d => decSymbolEffect d u

/-- DEC.FEED (R91). -/
def execDecFeed (data : Byte) (s : State) : Answer := s.decPresent (decFeedEffect data)

/-- DEC.FINISH (R97): nothing is emitted and a partial group is discarded; `DATA` is ignored (R60, R71). -/
def execDecFinish (_data : Byte) (s : State) : Answer := s.decPresent (fun u => u.endRun .g0)

/-- DEC.RSVD00 (R69, R107): `DATA` is ignored and the unit enters FAULT with `ILLEGAL_OP`. -/
def execDecRsvd00 (_data : Byte) (s : State) : Answer := s.decPresent (fun u => u.raiseFault .illegalOp)

/-- DEC.RSVD11 (R69, R107): `DATA` is ignored and the unit enters FAULT with `ILLEGAL_OP`. -/
def execDecRsvd11 (_data : Byte) (s : State) : Answer := s.decPresent (fun u => u.raiseFault .illegalOp)

end Sys2Proof.Machine
end

