-- ==== Sys2Proof/Machine/Encoder.lean ====
section
/-! DEFINITION. The meanings of the encoder's commands (40_encoder.md R76 to R89; the reserved ones 60_exceptions.md
R107). -/

namespace Sys2Proof.Machine

/-- The effect of an accepted `ENC.FEED c` (R76): R77 in state 0, R78 in state 1, R79 in state 2, where
`ENC.NEXT` is not written. -/
def encFeedEffect (c : Byte) (u : EncUnit) : EncUnit :=
  match u.gstate with
  | .g0 => ((u.emit (alpha (encTop6 c))).setNext (encLow2Carry c)).setGState .g1
  | .g1 => ((u.emit (alpha (u.next ||| encTop4 c))).setNext (encLow4Carry c)).setGState .g2
  | .g2 => ((u.emit (alpha (u.next ||| encTop2 c))).emit (alpha (encLow6 c))).setGState .g0

/-- The emits of an accepted `ENC.FINISH`: none in state 0 (R81), `ALPHA[NEXT]` and two `=` in state 1 (R82),
`ALPHA[NEXT]` and one `=` in state 2 (R83). -/
def encFinishEmits (u : EncUnit) : EncUnit :=
  match u.gstate with
  | .g0 => u
  | .g1 => ((u.emit (alpha u.next)).emit padByte).emit padByte
  | .g2 => (u.emit (alpha u.next)).emit padByte

/-- The effect of an accepted `ENC.FINISH` (R80). -/
def encFinishEffect (u : EncUnit) : EncUnit := (encFinishEmits u).endRun .g0

/-- ENC.FEED (R76). -/
def execEncFeed (data : Byte) (s : State) : Answer := s.encPresent (encFeedEffect data)

/-- ENC.FINISH (R80); `DATA` is ignored (R60, R71). -/
def execEncFinish (_data : Byte) (s : State) : Answer := s.encPresent encFinishEffect

/-- ENC.RSVD00 (R69, R107): `DATA` is ignored and the unit enters FAULT with `ILLEGAL_OP`. -/
def execEncRsvd00 (_data : Byte) (s : State) : Answer := s.encPresent (fun u => u.raiseFault .illegalOp)

/-- ENC.RSVD11 (R69, R107): `DATA` is ignored and the unit enters FAULT with `ILLEGAL_OP`. -/
def execEncRsvd11 (_data : Byte) (s : State) : Answer := s.encPresent (fun u => u.raiseFault .illegalOp)

end Sys2Proof.Machine
end

