-- ==== Sys2Proof/Machine/Dispatch.lean ====
section
/-! DEFINITION. The dispatch of a command to its meaning (30_encoding.md R69). -/

namespace Sys2Proof.Machine

def exec (i : Instr) (s : State) : Host.Outcome State Fault Refusal :=
  match i with
  | .encFeed data => Sys2Proof.Machine.execEncFeed data s
  | .encFinish data => Sys2Proof.Machine.execEncFinish data s
  | .encRsvd00 data => Sys2Proof.Machine.execEncRsvd00 data s
  | .encRsvd11 data => Sys2Proof.Machine.execEncRsvd11 data s
  | .decFeed data => Sys2Proof.Machine.execDecFeed data s
  | .decFinish data => Sys2Proof.Machine.execDecFinish data s
  | .decRsvd00 data => Sys2Proof.Machine.execDecRsvd00 data s
  | .decRsvd11 data => Sys2Proof.Machine.execDecRsvd11 data s

end Sys2Proof.Machine
end

