-- ==== Sys2Proof/Machine/Flags.lean ====
section
/-! DEFINITION. The status word and the output ports of a unit (10_state.md R27, 30_encoding.md R61, R62, R64, R65,
20_memory.md R47): functions of the registers held since the last edge and of `rst`. -/

namespace Sys2Proof.Machine

section Status

variable {G : Type} {w : Nat}

/-- `QEMPTY` (R27): `len(U.OUTQ) = 0`. -/
def UnitRegs.qempty (u : UnitRegs G w) : Bool := decide (u.outq.length = 0)

/-- `END` (R27): `PHASE = DONE` and the queue is empty. -/
def UnitRegs.endFlag (u : UnitRegs G w) : Bool := u.phase == .done && u.qempty

/-- `{ERRC, END, QEMPTY, GSTATE, PHASE}` (R27), for the 2-bit value of the group state. -/
def UnitRegs.status (u : UnitRegs G w) (gbits : G → BitVec 2) : BitVec 8 :=
  u.errc.bits ++ BitVec.ofBool u.endFlag ++ BitVec.ofBool u.qempty ++ gbits u.gstate ++ u.phase.bits

end Status

/-- The encoder's status word (R27). -/
def State.encStatus (s : State) : BitVec 8 := s.enc.status EncGroup.bits

/-- The decoder's status word (R27). -/
def State.decStatus (s : State) : BitVec 8 := s.dec.status DecGroup.bits

/-- The output ports of one unit (R61). -/
structure OutPins where
  cmdReady : Bool
  outValid : Bool
  outData  : Byte
  status   : BitVec 8
  deriving DecidableEq, Repr

/-- The byte on `out_data` (R47): the head of the queue while `out_valid` is 1, else a free value. -/
def outData (u : UnitId) (valid : Bool) (q : List Byte) (draw : Nat) : Byte :=
  if valid then q.headD (Config.freeOutData u draw) else Config.freeOutData u draw

/-- The encoder's ports in a cycle with the given `rst` (R62, R64, R65, R47). -/
def State.encPorts (s : State) (rst : Bool) : OutPins where
  cmdReady := !rst && s.encReady
  outValid := !rst && s.enc.hasByte
  outData := outData .enc (!rst && s.enc.hasByte) s.enc.outq s.env.draws
  status := s.encStatus

/-- The decoder's ports in a cycle with the given `rst` (R62, R64, R65, R47). -/
def State.decPorts (s : State) (rst : Bool) : OutPins where
  cmdReady := !rst && s.decReady
  outValid := !rst && s.dec.hasByte
  outData := outData .dec (!rst && s.dec.hasByte) s.dec.outq s.env.draws
  status := s.decStatus

end Sys2Proof.Machine
end

