-- ==== Sys2Proof/Machine/Clock.lean ====
section
/-! DEFINITION. The clock step of 30_encoding.md R66, as Accept and then Pop, both enabled before the edge (R67). -/

namespace Sys2Proof.Machine

/-- A rising edge of the encoder's clock (R66): with `rst = 1` reset, the command and the pop discarded (R112);
else the command presented, if any, and the pop, which is enabled by the queue as it was before the edge. -/
def encEdge (p : Pins) (s : State) : Answer :=
  if p.rst then .next s.resetEnc
  else andThen (if p.cmdValid then exec (decode .enc p.cmd) s else .next s)
    (fun t => .next (if (s.encPorts p.rst).outValid && p.outReady then t.encPop else t))

/-- A rising edge of the decoder's clock (R66). -/
def decEdge (p : Pins) (s : State) : Answer :=
  if p.rst then .next s.resetDec
  else andThen (if p.cmdValid then exec (decode .dec p.cmd) s else .next s)
    (fun t => .next (if (s.decPorts p.rst).outValid && p.outReady then t.decPop else t))

/-- The encoder's part of a clock event; a unit without an edge holds its state (R61, R119). -/
def encTick (e : Option Pins) (s : State) : Answer :=
  match e with
  | some p => encEdge p s
  | none => .next s

/-- The decoder's part of a clock event. -/
def decTick (e : Option Pins) (s : State) : Answer :=
  match e with
  | some p => decEdge p s
  | none => .next s

/-- Take the next clock event off the host's list and advance the counter of the free value (log entries 2, 6). -/
def State.takeTick (s : State) : State :=
  { s with env := { s.env with ticks := s.env.ticks.tail, draws := s.env.draws + 1 } }

/-- One clock event. Neither unit reads what the other writes (R56), so the order of the two parts cannot be
observed (log entry 16). Where the host presents nothing more, both units hold their state (R119). -/
def clockStep (s : State) : Answer :=
  match s.env.ticks with
  | [] => .next s.takeTick
  | t :: _ => andThen (encTick t.enc s.takeTick) (decTick t.dec)

/-- The clock event in which the host presents the word `w` to the unit `u` with `rst = 0` and takes no byte,
and the other unit has no edge. -/
def presentTick (u : UnitId) (w : CmdWord) : Tick :=
  match u with
  | .enc => ⟨some ⟨false, true, w, false⟩, none⟩
  | .dec => ⟨none, some ⟨false, true, w, false⟩⟩

/-- The clock event of a number (log entry 1); a number that names no word presents nothing. -/
def numberTick (n : Nat) : Tick :=
  match portWord n with
  | .ok (u, w) => presentTick u w
  | .error _ => ⟨none, none⟩

/-- Put a clock event before those the host has still to present. -/
def State.pushTick (s : State) (t : Tick) : State :=
  { s with env := { s.env with ticks := t :: s.env.ticks } }

end Sys2Proof.Machine
end

