-- ==== Sys2Proof/Machine/Step.lean ====
section
/-! DEFINITION. The step of the machine: one clock event (30_encoding.md R66). -/

namespace Sys2Proof.Machine

/-- One step of the machine. -/
def step (s : State) : Host.Outcome State Fault Refusal := clockStep s

/-- `s` with the table word `w` presented at the next clock event on the port the number selects (log entries 1
and 12): the hardware fetches nothing, the host presents each command (10_state.md R31). -/
def State.withFetchWord (s : State) (nbits w : Nat) : State := s.pushTick (numberTick (w % 2 ^ nbits))

end Sys2Proof.Machine
end

