-- ==== Sys2Proof/Machine/Assembler.lean ====
section
/-! DEFINITION. The command syntax of 30_encoding.md R73, its pseudo-instructions (R74), the encoding of a listing
(R75) and the clock events the host actions stand for. Text is a list of characters. -/

namespace Sys2Proof.Machine

/-- A line of a listing (R73, R74). `reset` and `drain` are host actions, without an encoding (R73). -/
inductive AsmLine where
  | feed (u : UnitId) (b : Byte)
  | finish (u : UnitId)
  | raw (u : UnitId) (w : CmdWord)
  | feeds (u : UnitId) (bs : List Byte)
  | reset
  | drain
  | blank
  deriving DecidableEq, Repr

/-! ### Reading a line -/

/-- The value of a decimal digit. -/
def decDigit (c : Char) : Option Nat :=
  if 48 ≤ c.toNat ∧ c.toNat ≤ 57 then some (c.toNat - 48) else none

/-- The value of a hexadecimal digit, either case. -/
def hexDigit (c : Char) : Option Nat :=
  if 65 ≤ c.toNat ∧ c.toNat ≤ 70 then some (c.toNat - 55)
  else if 97 ≤ c.toNat ∧ c.toNat ≤ 102 then some (c.toNat - 87)
  else decDigit c

/-- The longest run of digits from here on, after the value `acc` of those before. -/
def digitsFrom (digit : Char → Option Nat) (base acc : Nat) : List Char → Nat × List Char
  | [] => (acc, [])
  | c :: cs =>
    match digit c with
    | some v => digitsFrom digit base (acc * base + v) cs
    | none => (acc, c :: cs)

/-- A number of at least one digit. -/
def digits (digit : Char → Option Nat) (base : Nat) : List Char → Option (Nat × List Char)
  | [] => none
  | c :: cs => (digit c).map (fun v => digitsFrom digit base v cs)

/-- Decimal or `0xHH`, the forms R73 gives for `<b>`. DESIGN CHOICE (log entry 18): R73 gives no form for `<w>`, which
takes the same two, and after `0x` any number of hexadecimal digits (at least one) is read, either case; the operand
bounds the value. -/
def number : List Char → Option (Nat × List Char)
  | '0' :: 'x' :: cs => digits hexDigit 16 cs
  | cs => digits decDigit 10 cs

/-- The byte of a plain character: its ASCII byte (R73, R74). -/
def asciiByte (c : Char) : Option Byte := if c.toNat < 128 then some (BitVec.ofNat 8 c.toNat) else none

/-- The byte of `\xHH` (R74). -/
def hexByte (h l : Char) : Option Byte :=
  match hexDigit h, hexDigit l with
  | some a, some b => some (BitVec.ofNat 8 (16 * a + b))
  | _, _ => none

/-- Put a byte before what was read. -/
def consByte (b : Option Byte) (r : Option (List Byte × List Char)) : Option (List Byte × List Char) :=
  match b, r with
  | some v, some (bs, cs) => some (v :: bs, cs)
  | _, _ => none

/-- The rest of a string, up to its closing quote, with the escapes of R74. DESIGN CHOICE (log entry 19): a backslash
that begins none of R74's escapes, and a character that is not ASCII, make the line no line. -/
def stringBody : List Char → Option (List Byte × List Char)
  | [] => none
  | '"' :: cs => some ([], cs)
  | '\\' :: 'n' :: cs => consByte (some 0x0A#8) (stringBody cs)
  | '\\' :: 't' :: cs => consByte (some 0x09#8) (stringBody cs)
  | '\\' :: 'r' :: cs => consByte (some 0x0D#8) (stringBody cs)
  | '\\' :: '\\' :: cs => consByte (some 0x5C#8) (stringBody cs)
  | '\\' :: '"' :: cs => consByte (some 0x22#8) (stringBody cs)
  | '\\' :: 'x' :: h :: l :: cs => consByte (hexByte h l) (stringBody cs)
  | '\\' :: _ => none
  | c :: cs => consByte (asciiByte c) (stringBody cs)

/-- The rest of a character literal after its opening quote (R73), with the same escapes (log entry 13). -/
def charBody : List Char → Option (Byte × List Char)
  | '\\' :: 'n' :: '\'' :: cs => some (0x0A#8, cs)
  | '\\' :: 't' :: '\'' :: cs => some (0x09#8, cs)
  | '\\' :: 'r' :: '\'' :: cs => some (0x0D#8, cs)
  | '\\' :: '\\' :: '\'' :: cs => some (0x5C#8, cs)
  | '\\' :: '"' :: '\'' :: cs => some (0x22#8, cs)
  | '\\' :: 'x' :: h :: l :: '\'' :: cs => (hexByte h l).map (fun b => (b, cs))
  | '\\' :: _ => none
  | c :: '\'' :: cs => (asciiByte c).map (fun b => (b, cs))
  | _ => none

/-- `<b>`: an 8-bit value as a number (log entry 18) or a character literal (R73). -/
def byteOperand : List Char → Option (Byte × List Char)
  | '\'' :: cs => charBody cs
  | cs =>
    match number cs with
    | some (n, r) => if n < 256 then some (BitVec.ofNat 8 n, r) else none
    | none => none

/-- `<w>`: any 10-bit word (R73), written in the forms of `number` (log entry 18). -/
def wordOperand (cs : List Char) : Option (CmdWord × List Char) :=
  match number cs with
  | some (n, r) => if n < 1024 then some (BitVec.ofNat 10 n, r) else none
  | none => none

/-- `"<s>"` (R74). -/
def stringOperand : List Char → Option (List Byte × List Char)
  | '"' :: cs => stringBody cs
  | _ => none

/-- A space or a tab. DESIGN CHOICE (log entry 13): R73 shows one space between a mnemonic and its operand and says nothing
of what else separates them. -/
def isBlank (c : Char) : Bool := c == ' ' || c == '\t'

/-- Skip blanks. -/
def skipBlanks : List Char → List Char
  | [] => []
  | c :: cs => if isBlank c then skipBlanks cs else c :: cs

/-- Nothing more on the line but a comment (R73). -/
def lineEnds (cs : List Char) : Bool :=
  match skipBlanks cs with
  | [] => true
  | c :: _ => c == ';'

/-- The text after a keyword, if the text begins with it. -/
def afterWord : List Char → List Char → Option (List Char)
  | [], cs => some cs
  | _ :: _, [] => none
  | k :: ks, c :: cs => if k = c then afterWord ks cs else none

/-- A line that is a keyword alone. -/
def plainLine (key : List Char) (l : AsmLine) (cs : List Char) : Option AsmLine :=
  match afterWord key cs with
  | some r => if lineEnds r then some l else none
  | none => none

/-- A line that is a keyword, at least one blank (a space or a tab) and an operand. DESIGN CHOICE (log entry 13): R73 gives
no separator beyond the space it shows, so that an operand directly after its keyword makes the line no line. -/
def operandLine {α : Type} (key : List Char) (operand : List Char → Option (α × List Char))
    (mk : α → AsmLine) (cs : List Char) : Option AsmLine :=
  match afterWord key cs with
  | none => none
  | some [] => none
  | some (c :: r) =>
    if isBlank c then
      match operand (skipBlanks r) with
      | some (a, e) => if lineEnds e then some (mk a) else none
      | none => none
    else none

/-- The commands and pseudo-instructions of one unit, after its prefix `enc.` or `dec.` (R73, R74). -/
def unitLine (u : UnitId) (cs : List Char) : Option AsmLine :=
  operandLine ['f', 'e', 'e', 'd'] byteOperand (AsmLine.feed u) cs
    <|> plainLine ['f', 'i', 'n', 'i', 's', 'h'] (AsmLine.finish u) cs
    <|> operandLine ['r', 'a', 'w'] wordOperand (AsmLine.raw u) cs
    <|> operandLine ['f', 'e', 'e', 'd', 's'] stringOperand (AsmLine.feeds u) cs

/-- Read one line (R73, R74): `none` where it is no line of the syntax. DESIGN CHOICE (log entry 13): blanks before the
mnemonic are skipped, a line of blanks or of a comment alone is a line, and mnemonics are read as R73 writes them, in
lower case. -/
def parseLine (text : List Char) : Option AsmLine :=
  let cs := skipBlanks text
  if lineEnds cs then some .blank
  else
    match afterWord ['e', 'n', 'c', '.'] cs with
    | some r => unitLine .enc r
    | none =>
      match afterWord ['d', 'e', 'c', '.'] cs with
      | some r => unitLine .dec r
      | none =>
        plainLine ['r', 'e', 's', 'e', 't'] .reset cs <|> plainLine ['d', 'r', 'a', 'i', 'n'] .drain cs

/-! ### What a line stands for -/

/-- The words of a line: the encoding of R73 and the expansion of R74. Host actions have none (R73, R75). -/
def AsmLine.words : AsmLine → List CmdWord
  | .feed _ b => [cmdWord 0b01#2 b]
  | .finish _ => [0x200#10]
  | .raw _ w => [w]
  | .feeds _ bs => bs.map (cmdWord 0b01#2)
  | .reset => []
  | .drain => []
  | .blank => []

/-- The encoding of a listing (R75). -/
def listingWords (ls : List AsmLine) : List CmdWord := (ls.map AsmLine.words).flatten

/-- One clock edge of the unit `u` with the given pins, and none of the other unit. -/
def tickOf (u : UnitId) (p : Pins) : Tick :=
  match u with
  | .enc => ⟨some p, none⟩
  | .dec => ⟨none, some p⟩

/-- `reset` (R73): `rst = 1` for one edge. -/
def resetPins : Pins := ⟨true, false, 0, false⟩

/-- An edge at which the host takes a byte and presents no command. -/
def popPins : Pins := ⟨false, false, 0, true⟩

/-- The clock events a line of a listing for the unit `u` stands for (log entry 13): one event a command,
presented to its own unit; `reset` one edge; `drain` as many pops as the queue of `u` can hold bytes, those
beyond its length having no effect (R64). -/
def AsmLine.events (u : UnitId) (depth : Nat) : AsmLine → List Tick
  | .feed v b => [presentTick v (cmdWord 0b01#2 b)]
  | .finish v => [presentTick v 0x200#10]
  | .raw v w => [presentTick v w]
  | .feeds v bs => bs.map (fun b => presentTick v (cmdWord 0b01#2 b))
  | .reset => [tickOf u resetPins]
  | .drain => List.replicate depth (tickOf u popPins)
  | .blank => []

/-- The clock events of a listing for the unit `u`. -/
def listingEvents (u : UnitId) (depth : Nat) (ls : List AsmLine) : List Tick :=
  (ls.map (AsmLine.events u depth)).flatten

end Sys2Proof.Machine
end

