-- ==== Sys2Proof/Safety/Reference.lean ====
section
/-! DEFINITION. The base64 text of a byte sequence and its inverse, written from the group law of 20_memory.md R50 (the
24 bits of a group, most significant first) and the partial groups of 40_encoder.md R84 and 41_decoder.md R98.
No register and no group state of the machine occurs here: the statements compare the machine with these. -/

namespace Sys2Proof.Reference

open Sys2Proof.Machine

/-- The four characters of the encoder group `b0 b1 b2` (R50): `G = {b0, b1, b2}`, sliced into four indices. -/
def groupChars (b0 b1 b2 : Byte) : List Byte :=
  let g : BitVec 24 := b0 ++ b1 ++ b2
  [alpha (g.extractLsb' 18 6), alpha (g.extractLsb' 12 6), alpha (g.extractLsb' 6 6), alpha (g.extractLsb' 0 6)]

/-- The base64 text of a byte sequence, with its padding (R84). -/
def base64 : List Byte → List Byte
  | [] => []
  | [b0] => [alpha (b0.extractLsb' 2 6), alpha (b0.extractLsb' 0 2 ++ 0b0000#4), padByte, padByte]
  | [b0, b1] =>
    [alpha (b0.extractLsb' 2 6), alpha (b0.extractLsb' 0 2 ++ b1.extractLsb' 4 4),
      alpha (b1.extractLsb' 0 4 ++ 0b00#2), padByte]
  | b0 :: b1 :: b2 :: rest => groupChars b0 b1 b2 ++ base64 rest

/-- The characters of a byte sequence that are complete before the end of the stream is known: the part of R84
that the FEEDs emit. -/
def base64Open : List Byte → List Byte
  | [] => []
  | [b0] => [alpha (b0.extractLsb' 2 6)]
  | [b0, b1] => [alpha (b0.extractLsb' 2 6), alpha (b0.extractLsb' 0 2 ++ b1.extractLsb' 4 4)]
  | b0 :: b1 :: b2 :: rest => groupChars b0 b1 b2 ++ base64Open rest

/-- The three bytes of the decoder group `d0 d1 d2 d3` (R50): `H = {d0, d1, d2, d3}`, sliced into three bytes. -/
def groupBytes (d0 d1 d2 d3 : Symbol) : List Byte :=
  let h : BitVec 24 := d0 ++ d1 ++ d2 ++ d3
  [h.extractLsb' 16 8, h.extractLsb' 8 8, h.extractLsb' 0 8]

/-- The bytes that a symbol sequence completes (R98): a trailing partial group gives the bytes whose 8 bits it
holds and its dangling bits are dropped (R101). -/
def symbolBytes : List Symbol → List Byte
  | [] => []
  | [_] => []
  | [d0, d1] => [d0 ++ d1.extractLsb' 4 2]
  | [d0, d1, d2] => [d0 ++ d1.extractLsb' 4 2, d1.extractLsb' 0 4 ++ d2.extractLsb' 2 4]
  | d0 :: d1 :: d2 :: d3 :: rest => groupBytes d0 d1 d2 d3 ++ symbolBytes rest

/-- The symbols of a byte sequence: the ignored bytes removed (R90, R98). -/
def symbolsOf (bs : List Byte) : List Symbol := bs.filterMap symbolOf

end Sys2Proof.Reference
end

