-- ==== Sys2Proof/Safety.lean ====
section
/-! DEFINITION. What counts as a sound state of the machine (the invariants of 10_state.md R16 to R25 and 20_memory.md
R46), what the next clock event does at each unit, runs of several steps, and the history of the commands a unit
has accepted since the reset that began its run. -/

namespace Sys2Proof.Machine

/-! ### Invariants -/

/-- R25: `U.ERRC != 0` exactly when `U.PHASE = FAULT`. -/
abbrev UnitRegs.ErrcOk {G : Type} {w : Nat} (u : UnitRegs G w) : Prop := u.errc ≠ .noError ↔ u.phase = .fault

/-- R46: the queue holds at most its capacity. -/
abbrev UnitRegs.QueueOk {G : Type} {w : Nat} (u : UnitRegs G w) (depth : Nat) : Prop := u.outq.length ≤ depth

/-- R18: the low bits of `ENC.NEXT` that are 0 in each group state; in state 0 the stale value is 0 or was written
as `c[3:0] << 2`. -/
abbrev EncUnit.NextOk (u : EncUnit) : Prop :=
  (u.gstate = .g0 → u.next.extractLsb' 0 2 = 0#2) ∧
  (u.gstate = .g1 → u.next.extractLsb' 0 4 = 0#4) ∧
  (u.gstate = .g2 → u.next.extractLsb' 0 2 = 0#2)

/-- R23: the low bits of `DEC.NEXT` that are 0 in each group state; in state 0 the stale value is 0 or was written
as `d << 6`. -/
abbrev DecUnit.NextOk (u : DecUnit) : Prop :=
  (u.gstate = .g0 → u.next.extractLsb' 0 6 = 0#6) ∧
  (u.gstate = .g1 → u.next.extractLsb' 0 2 = 0#2) ∧
  (u.gstate = .g2 → u.next.extractLsb' 0 4 = 0#4) ∧
  (u.gstate = .g3 → u.next.extractLsb' 0 6 = 0#6)

/-- R80: FINISH has cleared the group state and the accumulator of an encoder in DONE. -/
abbrev EncUnit.DoneOk (u : EncUnit) : Prop := u.phase = .done → u.gstate = .g0 ∧ u.next = 0#6

/-- R97: FINISH has cleared the group state and the accumulator of a decoder in DONE. -/
abbrev DecUnit.DoneOk (u : DecUnit) : Prop := u.phase = .done → u.gstate = .g0 ∧ u.next = 0#8

/-- The invariant of the encoder. -/
abbrev EncUnit.Sound (u : EncUnit) (depth : Nat) : Prop :=
  u.ErrcOk ∧ u.QueueOk depth ∧ EncUnit.NextOk u ∧ EncUnit.DoneOk u

/-- The invariant of the decoder. -/
abbrev DecUnit.Sound (u : DecUnit) (depth : Nat) : Prop :=
  u.ErrcOk ∧ u.QueueOk depth ∧ DecUnit.NextOk u ∧ DecUnit.DoneOk u

/-- The invariant of the machine. -/
abbrev State.Inv (s : State) : Prop :=
  s.cfg.Wf ∧ EncUnit.Sound s.enc s.cfg.encDepth ∧ DecUnit.Sound s.dec s.cfg.decDepth

/-- R86: an entry of ALPHA or the padding byte. -/
abbrev encoderChar (b : Byte) : Prop := b = padByte ∨ b ∈ alphaTable

/-! ### What the next clock event does -/

/-- The encoder's pins at the next clock event, if it has an edge there. -/
def State.encPins (s : State) : Option Pins := s.env.ticks.head?.bind Tick.enc

/-- The decoder's pins at the next clock event, if it has an edge there. -/
def State.decPins (s : State) : Option Pins := s.env.ticks.head?.bind Tick.dec

/-- `rst = 1` at the edge (R121). -/
def resets (p : Option Pins) : Bool :=
  match p with
  | some q => q.rst
  | none => false

/-- The command accepted at the edge, for a unit that is ready or not (R62). -/
def accepts (u : UnitId) (ready : Bool) (p : Option Pins) : Option Instr :=
  match p with
  | some q => if !q.rst && q.cmdValid && ready then some (decode u q.cmd) else none
  | none => none

/-- The command the encoder accepts at the next clock event (R62). -/
def State.encAccepts (s : State) : Option Instr := accepts .enc s.encReady s.encPins

/-- The command the decoder accepts at the next clock event (R62). -/
def State.decAccepts (s : State) : Option Instr := accepts .dec s.decReady s.decPins

/-! ### Runs -/

/-- `k` steps of the machine. -/
def steps (k : Nat) (s : State) : Answer := Host.Core.run Sys2Proof.core k s

/-- What a unit has accepted since the reset that began its run: the bytes fed, in order, and how far the run has
come. -/
structure RunHistory where
  fed   : List Byte
  phase : Phase
  deriving DecidableEq, Repr

/-- The history right after a reset. -/
def RunHistory.start : RunHistory := ⟨[], .run⟩

/-- The history after one more accepted command. -/
def RunHistory.record (h : RunHistory) (i : Instr) : RunHistory :=
  match i with
  | .encFeed b => { h with fed := h.fed ++ [b] }
  | .encFinish _ => { h with phase := .done }
  | .encRsvd00 _ => { h with phase := .fault }
  | .encRsvd11 _ => { h with phase := .fault }
  | .decFeed b => { h with fed := h.fed ++ [b] }
  | .decFinish _ => { h with phase := .done }
  | .decRsvd00 _ => { h with phase := .fault }
  | .decRsvd11 _ => { h with phase := .fault }

/-- The history after an edge that resets or accepts a command or does neither. -/
def RunHistory.after (h : RunHistory) (reset : Bool) (accepted : Option Instr) : RunHistory :=
  if reset then .start
  else
    match accepted with
    | some i => h.record i
    | none => h

/-- The encoder's history after `k` steps from `s`, where it was `h` at `s`. -/
def encHistory : Nat → RunHistory → State → RunHistory
  | 0, h, _ => h
  | k + 1, h, s =>
    match step s with
    | .next t => encHistory k (h.after (resets s.encPins) s.encAccepts) t
    | .fault _ => h
    | .refused _ => h

/-- The decoder's history after `k` steps from `s`, where it was `h` at `s`. -/
def decHistory : Nat → RunHistory → State → RunHistory
  | 0, h, _ => h
  | k + 1, h, s =>
    match step s with
    | .next t => decHistory k (h.after (resets s.decPins) s.decAccepts) t
    | .fault _ => h
    | .refused _ => h

/-- The encoder stands at the beginning of a run (R30, R122, R130). -/
abbrev State.EncRunStart (s : State) : Prop := s.enc = EncUnit.reset ∧ s.env.encStream = []

/-- The decoder stands at the beginning of a run (R30, R122, R130). -/
abbrev State.DecRunStart (s : State) : Prop := s.dec = DecUnit.reset ∧ s.env.decStream = []

/-- All bytes of the encoder's run so far, popped or still queued, in the order they leave (R48). -/
def State.encOutput (s : State) : List Byte := s.env.encStream ++ s.enc.outq

/-- All bytes of the decoder's run so far, popped or still queued, in the order they leave (R48). -/
def State.decOutput (s : State) : List Byte := s.env.decStream ++ s.dec.outq

/-- R130: the encoder's run has ended cleanly: PHASE is DONE and every byte has been popped (`status.END`). -/
abbrev UnitRegs.EndedCleanly {G : Type} {w : Nat} (u : UnitRegs G w) : Prop := u.phase = .done ∧ u.outq = []

/-- R130: the run has ended in a fault: PHASE is FAULT and every byte has been popped. -/
abbrev UnitRegs.EndedInFault {G : Type} {w : Nat} (u : UnitRegs G w) : Prop := u.phase = .fault ∧ u.outq = []

/-! ### The transaction level (R67) -/

/-- The actions of a unit without a clock (R67): `Reset`, `Accept(cmd)` and `Pop(v)`. -/
inductive Action where
  | reset (u : UnitId)
  | accept (u : UnitId) (w : CmdWord)
  | pop (u : UnitId)
  deriving DecidableEq, Repr

/-- The state after an answer, if it is one. -/
def answered (o : Answer) : Option State :=
  match o with
  | .next s => some s
  | .fault _ => none
  | .refused _ => none

/-- The effect of an action, `none` where it is not enabled (R67). -/
def Action.effect (a : Action) (s : State) : Option State :=
  match a with
  | .reset .enc => some s.resetEnc
  | .reset .dec => some s.resetDec
  | .accept .enc w => if s.encReady then answered (exec (decode .enc w) s) else none
  | .accept .dec w => if s.decReady then answered (exec (decode .dec w) s) else none
  | .pop .enc => if s.enc.outq = [] then none else some s.encPop
  | .pop .dec => if s.dec.outq = [] then none else some s.decPop

/-- The effect of a sequence of actions, `none` where one is not enabled when its turn comes. -/
def actions : List Action → State → Option State
  | [], s => some s
  | a :: rest, s => (a.effect s).bind (actions rest)

end Sys2Proof.Machine
end

