-- ==== Sys2Proof/Certificates/Slice0/Obligations.lean ====
section
/-! DEFINITION. The statements for the provers. Each docstring names the rule of spec/ it formalises; where it rests on
an inference the spec marks as its own or on a choice of this model, it says so. -/

open Sys2Proof Sys2Proof.Machine Sys2Proof.Reference

/-! ### Command words -/

/-- 30_encoding.md sections 1 and 4 (R58, R59, R69): every command decodes from its own word on the port of its
unit, with every operand bit, and every word of a port is the word of the command it decodes to. -/
def Obligations.DecodeEncodeRoundTrip : Prop :=
  (∀ (u : UnitId) (i : Instr), i.wellFormedOn u = true → decode u (encode i) = i) ∧
  (∀ (u : UnitId) (w : CmdWord), (decode u w).wellFormedOn u = true ∧ encode (decode u w) = w)

/-- R73's words, written out bit by bit: `enc.feed 0x66`, `enc.finish`, the two reserved operations, and the same
words on the decoder's port. -/
def Obligations.WrittenOutWordsDecode : Prop :=
  decode .enc 0b0101100110#10 = .encFeed 0x66#8 ∧ decode .enc 0b1000000000#10 = .encFinish 0x00#8 ∧
  decode .enc 0b0011111111#10 = .encRsvd00 0xFF#8 ∧ decode .enc 0b1101000001#10 = .encRsvd11 0x41#8 ∧
  decode .dec 0b0101011010#10 = .decFeed 0x5A#8 ∧ decode .dec 0b1011111111#10 = .decFinish 0xFF#8 ∧
  decode .dec 0b0000000000#10 = .decRsvd00 0x00#8 ∧ decode .dec 0b1101000001#10 = .decRsvd11 0x41#8

/-- 30_encoding.md section 4 with spec/opcode_table.json: of the table's rows exactly one row of a port's unit
matches a word, and it is the row of the command the word decodes to; the illegal commands are those whose `OP` is
2'b00 or 2'b11 (R70). -/
def Obligations.OpcodeRowsPartitionWords : Prop :=
  ∀ (u : UnitId) (w : CmdWord),
    opcodeRows.filter (fun r => r.hits u w) = [(decode u w).row] ∧
    ((decode u w).legal = false ↔ cmdOp w = 0b00#2 ∨ cmdOp w = 0b11#2)

/-- R71: a FINISH word executes alike for every `DATA`; a FEED word is legal for every `DATA` on both units; on the
decoder a `DATA` value that is not an alphabet character is skipped. -/
def Obligations.FinishDataIgnoredFeedAlwaysLegal : Prop :=
  (∀ (u : UnitId) (data : Byte) (s : State),
    exec (decode u (cmdWord 0b10#2 data)) s = exec (decode u (cmdWord 0b10#2 0#8)) s ∧
    (decode u (cmdWord 0b10#2 data)).legal = true) ∧
  (∀ (u : UnitId) (data : Byte), (decode u (cmdWord 0b01#2 data)).legal = true) ∧
  (∀ (data : Byte) (s : State), data ∉ alphaTable →
    exec (decode .dec (cmdWord 0b01#2 data)) s = .next s)

/-- 30_encoding.md section 5 (R73, R74, R75): the words of the command syntax (`0x100 + b`, `0x200`, `w`; for `feeds`
exactly one FEED word per byte in order, none for the empty string, whatever blocks the bytes come in; none for the host
actions), and lines of that syntax read as the commands they write. Two of the lines rest on the model's choices of log
entry 18 (DESIGN CHOICE), since R73 gives `<w>` no number form and does not say what a value out of range is: that
`dec.raw 0x3FF` is read as hexadecimal, and that `enc.feed 256` is no line. -/
def Obligations.SyntaxWords : Prop :=
  (∀ (u : UnitId) (b : Byte) (w : CmdWord),
    (AsmLine.feed u b).words = [0x100#10 + b.setWidth 10] ∧ (AsmLine.finish u).words = [0x200#10] ∧
    (AsmLine.raw u w).words = [w]) ∧
  (∀ u : UnitId, (AsmLine.feeds u []).words = []) ∧
  (∀ (u : UnitId) (bs : List Byte), (AsmLine.feeds u bs).words = listingWords (bs.map (AsmLine.feed u))) ∧
  (∀ (u : UnitId) (as bs : List Byte),
    (AsmLine.feeds u (as ++ bs)).words = listingWords (as.map (AsmLine.feed u)) ++ (AsmLine.feeds u bs).words) ∧
  (AsmLine.reset.words = [] ∧ AsmLine.drain.words = []) ∧
  parseLine "enc.feed 'f'".toList = some (.feed .enc 0x66#8) ∧
  parseLine "dec.feed 0x0A ; LF".toList = some (.feed .dec 0x0A#8) ∧
  parseLine "enc.finish".toList = some (.finish .enc) ∧
  parseLine "dec.raw 0x3FF".toList = some (.raw .dec 0x3FF#10) ∧
  parseLine "dec.feeds \"Q\\n\\x3D\"".toList = some (.feeds .dec [0x51#8, 0x0A#8, 0x3D#8]) ∧
  parseLine "reset".toList = some .reset ∧ parseLine "drain".toList = some .drain ∧
  parseLine "enc.feed 256".toList = none

/-! ### The ROMs -/

/-- 20_memory.md section 1, R38's words: indices 0 to 25 are 0x41 to 0x5A, 26 to 51 are 0x61 to 0x7A, 52 to 61 are
0x30 to 0x39, 62 is 0x2B and 63 is 0x2F. The spec marks 52 of the entries as general knowledge (log entry 10). -/
def Obligations.AlphabetOrder : Prop :=
  ∀ i : Symbol, (alpha i).toNat =
    if i.toNat ≤ 25 then 0x41 + i.toNat
    else if i.toNat ≤ 51 then 0x61 + (i.toNat - 26)
    else if i.toNat ≤ 61 then 0x30 + (i.toNat - 52)
    else if i.toNat = 62 then 0x2B else 0x2F

/-- R41: bit 6 of an entry is `IGN`, bits 5:0 are `VAL`; an ignored entry has `VAL = 0`, and one that is not has the
index of its byte in ALPHA. -/
def Obligations.InverseRomFormat : Prop :=
  ∀ b : Byte, inv b = BitVec.ofBool (invIgn (inv b)) ++ invVal (inv b) ∧
    (invIgn (inv b) = true → invVal (inv b) = 0#6) ∧
    (invIgn (inv b) = false → alpha (invVal (inv b)) = b)

/-- 20_memory.md sections 1 and 2 (the spec's own inferences R39 and R43): ALPHA is injective, none of its entries is
`=` or a byte of 0x80 or above, INV undoes it, every other byte reads 7'b1000000, and 64 bytes are symbols. -/
def Obligations.InverseRomLaw : Prop :=
  (∀ i j : Symbol, alpha i = alpha j → i = j) ∧
  (∀ i : Symbol, alpha i ≠ padByte ∧ (alpha i).toNat < 0x80 ∧ inv (alpha i) = 0#1 ++ i) ∧
  (∀ b : Byte, b ∉ alphaTable → inv b = 0b1000000#7) ∧
  ((List.range 256).filter (fun n => !invIgn (inv (BitVec.ofNat 8 n)))).length = 64

/-! ### Encoder commands, each with its whole next state -/

/-- R77: an accepted ENC.FEED in state 0. The index is `c >> 2`; NEXT is `{c[1:0], 4'b0000}`, which is
`(c & 0x3) << 4` and at most 48; `c = 0xFF` emits `/` and sets NEXT to 48. Nothing else changes. -/
def Obligations.EncFeedFirstByte : Prop :=
  (∀ (c : Byte) (s : State), s.enc.phase = .run → 3 ≤ s.cfg.encDepth - s.enc.outq.length → s.enc.gstate = .g0 →
    exec (.encFeed c) s = .next { s with enc := { s.enc with
      outq := s.enc.outq ++ [alpha (c.extractLsb' 2 6)], next := c.extractLsb' 0 2 ++ 0b0000#4, gstate := .g1 } }) ∧
  (∀ c : Byte, (c.extractLsb' 2 6 : Symbol) = (c >>> 2).setWidth 6 ∧
    ((c.extractLsb' 0 2 ++ 0b0000#4 : Symbol)).setWidth 8 = (c &&& 0x3#8) <<< 4 ∧
    ((c.extractLsb' 0 2 ++ 0b0000#4 : Symbol)).toNat ≤ 48) ∧
  alpha ((0xFF#8 : Byte).extractLsb' 2 6) = 0x2F#8 ∧ ((0xFF#8 : Byte).extractLsb' 0 2 ++ 0b0000#4 : Symbol) = 48#6

/-- R78: an accepted ENC.FEED in state 1. The index is `NEXT | (c >> 4)`, which is `{NEXT[5:4], c[7:4]}` because
`NEXT[3:0] = 0` there; NEXT is `{c[3:0], 2'b00}`, which is `(c & 0xF) << 2` and at most 60; after `f`, `o` emits `m` and
sets NEXT to 60. Nothing else changes. -/
def Obligations.EncFeedSecondByte : Prop :=
  (∀ (c : Byte) (s : State), s.enc.phase = .run → 3 ≤ s.cfg.encDepth - s.enc.outq.length → s.enc.gstate = .g1 →
    exec (.encFeed c) s = .next { s with enc := { s.enc with
      outq := s.enc.outq ++ [alpha (s.enc.next ||| (c >>> 4).setWidth 6)],
      next := c.extractLsb' 0 4 ++ 0b00#2, gstate := .g2 } }) ∧
  (∀ (c : Byte) (n : Symbol), n.extractLsb' 0 4 = 0#4 →
    n ||| (c >>> 4).setWidth 6 = n.extractLsb' 4 2 ++ c.extractLsb' 4 4) ∧
  (∀ c : Byte, ((c.extractLsb' 0 4 ++ 0b00#2 : Symbol)).setWidth 8 = (c &&& 0xF#8) <<< 2 ∧
    ((c.extractLsb' 0 4 ++ 0b00#2 : Symbol)).toNat ≤ 60) ∧
  alpha (32#6 ||| (0x6F#8 >>> 4).setWidth 6) = 0x6D#8 ∧ ((0x6F#8 : Byte).extractLsb' 0 4 ++ 0b00#2 : Symbol) = 60#6

/-- R79: an accepted ENC.FEED in state 2. The indices are `NEXT | (c >> 6)`, which is `{NEXT[5:2], c[7:6]}` because
`NEXT[1:0] = 0` there, and `c & 0x3F`, in that order; NEXT keeps its value; after `fo`, `o` emits `9` and `v`. Nothing
else changes. -/
def Obligations.EncFeedThirdByte : Prop :=
  (∀ (c : Byte) (s : State), s.enc.phase = .run → 3 ≤ s.cfg.encDepth - s.enc.outq.length → s.enc.gstate = .g2 →
    exec (.encFeed c) s = .next { s with enc := { s.enc with
      outq := s.enc.outq ++ [alpha (s.enc.next ||| (c >>> 6).setWidth 6), alpha (c.extractLsb' 0 6)],
      gstate := .g0 } }) ∧
  (∀ (c : Byte) (n : Symbol), n.extractLsb' 0 2 = 0#2 →
    n ||| (c >>> 6).setWidth 6 = n.extractLsb' 2 4 ++ c.extractLsb' 6 2) ∧
  (∀ c : Byte, ((c.extractLsb' 0 6 : Symbol)).setWidth 8 = c &&& 0x3F#8) ∧
  alpha (60#6 ||| (0x6F#8 >>> 6).setWidth 6) = 0x39#8 ∧ alpha ((0x6F#8 : Byte).extractLsb' 0 6) = 0x76#8

/-- 40_encoder.md section 2 (R80, R81): an accepted ENC.FINISH in state 0 emits nothing; it clears GSTATE and NEXT and enters DONE.
Nothing else changes. -/
def Obligations.EncFinishCompleteGroup : Prop :=
  ∀ (data : Byte) (s : State), s.enc.phase = .run → 3 ≤ s.cfg.encDepth - s.enc.outq.length → s.enc.gstate = .g0 →
    exec (.encFinish data) s = .next { s with enc := { s.enc with gstate := .g0, next := 0#6, phase := .done } }

/-- R82: an accepted ENC.FINISH in state 1 emits `ALPHA[NEXT]`, which is one of `A`, `Q`, `g`, `w` because NEXT is 0, 16,
32 or 48 there (R18), and two `=`; it is the largest emit of an encoder command, and `ENC.MAXEMIT` is 3. As R80 says,
it clears GSTATE and NEXT and enters DONE. Nothing else changes. -/
def Obligations.EncFinishOneLeftoverByte : Prop :=
  (∀ (data : Byte) (s : State), s.enc.phase = .run → 3 ≤ s.cfg.encDepth - s.enc.outq.length → s.enc.gstate = .g1 →
    exec (.encFinish data) s = .next { s with enc := { s.enc with
      outq := s.enc.outq ++ [alpha s.enc.next, 0x3D#8, 0x3D#8], gstate := .g0, next := 0#6, phase := .done } }) ∧
  (∀ n : Symbol, n.extractLsb' 0 4 = 0#4 →
    (n = 0#6 ∨ n = 16#6 ∨ n = 32#6 ∨ n = 48#6) ∧
    (alpha n = 0x41#8 ∨ alpha n = 0x51#8 ∨ alpha n = 0x67#8 ∨ alpha n = 0x77#8)) ∧
  encMaxEmit = 3 ∧
  (∀ (i : Instr) (s t : State), exec i s = .next t → t.enc.outq.length ≤ s.enc.outq.length + 3)

/-- R83: an accepted ENC.FINISH in state 2 emits `ALPHA[NEXT]`, whose index is a multiple of 4 because `NEXT[1:0] = 0`
there (R18), and one `=`. As R80 says, it clears GSTATE and NEXT and enters DONE. Nothing else changes. -/
def Obligations.EncFinishTwoLeftoverBytes : Prop :=
  (∀ (data : Byte) (s : State), s.enc.phase = .run → 3 ≤ s.cfg.encDepth - s.enc.outq.length → s.enc.gstate = .g2 →
    exec (.encFinish data) s = .next { s with enc := { s.enc with
      outq := s.enc.outq ++ [alpha s.enc.next, 0x3D#8], gstate := .g0, next := 0#6, phase := .done } }) ∧
  (∀ n : Symbol, n.extractLsb' 0 2 = 0#2 → n.toNat % 4 = 0)

/-! ### Decoder commands, each with its whole next state -/

/-- R90: a byte is ignored exactly when bit 6 of its INV entry is 1, which is the case exactly for the bytes outside
the alphabet (192 of them, `=`, whitespace, control bytes and 0x80 to 0xFF among them); otherwise it is a symbol with
the 6-bit value in bits 5:0. -/
def Obligations.Classification : Prop :=
  (∀ b : Byte, (invIgn (inv b) = (inv b).getLsbD 6) ∧ (symbolOf b = none ↔ invIgn (inv b) = true) ∧
    (invIgn (inv b) = false → symbolOf b = some ((inv b).extractLsb' 0 6)) ∧
    (symbolOf b = none ↔ b ∉ alphaTable) ∧
    (b = 0x3D#8 ∨ b = 0x7F#8 ∨ b.toNat ≤ 0x20 ∨ 0x80 ≤ b.toNat → symbolOf b = none)) ∧
  ((List.range 256).filter (fun n => symbolOf (BitVec.ofNat 8 n) == none)).length = 192

/-- R92: DEC.FEED of an ignored byte leaves the state as it was, accepted or not; 0x0A is such a byte. -/
def Obligations.DecFeedIgnoredByte : Prop :=
  (∀ (b : Byte) (s : State), symbolOf b = none → exec (.decFeed b) s = .next s) ∧ symbolOf 0x0A#8 = none

/-- R93: an accepted DEC.FEED of a symbol `d` in state 0. NEXT is `{d, 2'b00}`, which is `d << 2` and at most 252; nothing
is emitted; `d = 25` sets NEXT to 0x64. Nothing else changes. -/
def Obligations.DecFeedFirstSymbol : Prop :=
  (∀ (b : Byte) (d : Symbol) (s : State), symbolOf b = some d → s.dec.phase = .run →
    1 ≤ s.cfg.decDepth - s.dec.outq.length → s.dec.gstate = .g0 →
    exec (.decFeed b) s = .next { s with dec := { s.dec with next := d ++ 0b00#2, gstate := .g1 } }) ∧
  (∀ d : Symbol, ((d ++ 0b00#2 : Byte)).toNat = d.toNat <<< 2 ∧ d.toNat <<< 2 ≤ 252) ∧
  (25#6 ++ 0b00#2 : Byte) = 0x64#8

/-- R94: an accepted DEC.FEED of a symbol `d` in state 1. The byte is `NEXT | (d >> 4)`, which is `{NEXT[7:2], d[5:4]}`
because `NEXT[1:0] = 0` there; NEXT is `{d[3:0], 4'b0000}`, which is `d << 4` truncated to 8 bits; after `Z`, `d = 38` emits
0x66 and sets NEXT to 0x60. Nothing else changes. -/
def Obligations.DecFeedSecondSymbol : Prop :=
  (∀ (b : Byte) (d : Symbol) (s : State), symbolOf b = some d → s.dec.phase = .run →
    1 ≤ s.cfg.decDepth - s.dec.outq.length → s.dec.gstate = .g1 →
    exec (.decFeed b) s = .next { s with dec := { s.dec with
      outq := s.dec.outq ++ [s.dec.next ||| (d >>> 4).setWidth 8], next := d.extractLsb' 0 4 ++ 0b0000#4,
      gstate := .g2 } }) ∧
  (∀ (n : Byte) (d : Symbol), n.extractLsb' 0 2 = 0#2 →
    n ||| (d >>> 4).setWidth 8 = n.extractLsb' 2 6 ++ d.extractLsb' 4 2) ∧
  (∀ d : Symbol, (d.extractLsb' 0 4 ++ 0b0000#4 : Byte) = BitVec.ofNat 8 (d.toNat <<< 4)) ∧
  0x64#8 ||| (38#6 >>> 4).setWidth 8 = 0x66#8 ∧ ((38#6 : Symbol).extractLsb' 0 4 ++ 0b0000#4 : Byte) = 0x60#8

/-- R95: an accepted DEC.FEED of a symbol `d` in state 2. The byte is `NEXT | (d >> 2)`, which is `{NEXT[7:4], d[5:2]}`
because `NEXT[3:0] = 0` there; NEXT is `{d[1:0], 6'b000000}`, which is `d << 6` truncated to 8 bits; after `Zm`, `d = 61`
emits 0x6F and sets NEXT to 0x40. Nothing else changes. -/
def Obligations.DecFeedThirdSymbol : Prop :=
  (∀ (b : Byte) (d : Symbol) (s : State), symbolOf b = some d → s.dec.phase = .run →
    1 ≤ s.cfg.decDepth - s.dec.outq.length → s.dec.gstate = .g2 →
    exec (.decFeed b) s = .next { s with dec := { s.dec with
      outq := s.dec.outq ++ [s.dec.next ||| (d >>> 2).setWidth 8], next := d.extractLsb' 0 2 ++ 0b000000#6,
      gstate := .g3 } }) ∧
  (∀ (n : Byte) (d : Symbol), n.extractLsb' 0 4 = 0#4 →
    n ||| (d >>> 2).setWidth 8 = n.extractLsb' 4 4 ++ d.extractLsb' 2 4) ∧
  (∀ d : Symbol, (d.extractLsb' 0 2 ++ 0b000000#6 : Byte) = BitVec.ofNat 8 (d.toNat <<< 6)) ∧
  0x60#8 ||| (61#6 >>> 2).setWidth 8 = 0x6F#8 ∧ ((61#6 : Symbol).extractLsb' 0 2 ++ 0b000000#6 : Byte) = 0x40#8

/-- R96: an accepted DEC.FEED of a symbol `d` in state 3. The byte is `NEXT | d`, which is `{NEXT[7:6], d}` because
`NEXT[5:0] = 0` there; NEXT keeps its value; after `Zm9`, `d = 47` emits 0x6F. Nothing else changes. -/
def Obligations.DecFeedFourthSymbol : Prop :=
  (∀ (b : Byte) (d : Symbol) (s : State), symbolOf b = some d → s.dec.phase = .run →
    1 ≤ s.cfg.decDepth - s.dec.outq.length → s.dec.gstate = .g3 →
    exec (.decFeed b) s = .next { s with dec := { s.dec with
      outq := s.dec.outq ++ [s.dec.next ||| d.setWidth 8], gstate := .g0 } }) ∧
  (∀ (n : Byte) (d : Symbol), n.extractLsb' 0 6 = 0#6 → n ||| d.setWidth 8 = n.extractLsb' 6 2 ++ d) ∧
  0x40#8 ||| (47#6).setWidth 8 = 0x6F#8

/-- 41_decoder.md section 3 (R97): an accepted DEC.FINISH, in every group state and for every `DATA`, emits nothing,
clears GSTATE and NEXT and enters DONE; a partial group is discarded without a flag. Nothing else changes. -/
def Obligations.DecFinishDiscardsPartialGroup : Prop :=
  ∀ (data : Byte) (s : State), s.dec.phase = .run → 1 ≤ s.cfg.decDepth - s.dec.outq.length →
    exec (.decFinish data) s = .next { s with dec := { s.dec with gstate := .g0, next := 0#8, phase := .done } }

/-! ### The fault -/

/-- R107: an accepted command with `OP` 2'b00 or 2'b11, on either unit and for every `DATA`, enters FAULT with cause 01,
which the status word then shows; GSTATE, NEXT and the queue keep their values and nothing else changes. -/
def Obligations.ReservedOpsRaiseIllegalOp : Prop :=
  (∀ (w : CmdWord) (s : State), cmdOp w = 0b00#2 ∨ cmdOp w = 0b11#2 → s.enc.phase = .run →
    3 ≤ s.cfg.encDepth - s.enc.outq.length →
    ∃ t, exec (decode .enc w) s = .next t ∧
      t = { s with enc := { s.enc with phase := .fault, errc := .illegalOp } } ∧
      t.encStatus.extractLsb' 0 2 = 0b10#2 ∧ t.encStatus.extractLsb' 6 2 = 0b01#2) ∧
  (∀ (w : CmdWord) (s : State), cmdOp w = 0b00#2 ∨ cmdOp w = 0b11#2 → s.dec.phase = .run →
    1 ≤ s.cfg.decDepth - s.dec.outq.length →
    ∃ t, exec (decode .dec w) s = .next t ∧
      t = { s with dec := { s.dec with phase := .fault, errc := .illegalOp } } ∧
      t.decStatus.extractLsb' 0 2 = 0b10#2 ∧ t.decStatus.extractLsb' 6 2 = 0b01#2)

/-- The four reserved rows of the opcode table by name, in accepting states: each completes with the fault entry of
60_exceptions.md section 2, for every `DATA`. -/
def Obligations.ReservedCommandsComplete : Prop :=
  (∀ (data : Byte) (s : State), s.enc.phase = .run → 3 ≤ s.cfg.encDepth - s.enc.outq.length →
    exec (.encRsvd00 data) s = .next { s with enc := { s.enc with phase := .fault, errc := .illegalOp } } ∧
    exec (.encRsvd11 data) s = .next { s with enc := { s.enc with phase := .fault, errc := .illegalOp } }) ∧
  (∀ (data : Byte) (s : State), s.dec.phase = .run → 1 ≤ s.cfg.decDepth - s.dec.outq.length →
    exec (.decRsvd00 data) s = .next { s with dec := { s.dec with phase := .fault, errc := .illegalOp } } ∧
    exec (.decRsvd11 data) s = .next { s with dec := { s.dec with phase := .fault, errc := .illegalOp } })

/-! ### Frames -/

/-- The frame of every command (20_memory.md section 6, 60_exceptions.md section 2, 40_encoder.md sections 1 and 2,
41_decoder.md sections 2 and 3): a command of one unit changes nothing of the other unit, of the queue depths or of the
host's side; it only appends to its own queue; ENC.FEED and DEC.FEED keep PHASE and ERRC, the FINISH commands keep
ERRC, DEC.FINISH keeps the queue, and the reserved commands keep GSTATE, NEXT and the queue. -/
def Obligations.CommandFrames : Prop :=
  (∀ (i : Instr) (s t : State), exec i s = .next t →
    t.cfg = s.cfg ∧ t.env = s.env ∧ (i.unit = .enc → t.dec = s.dec) ∧ (i.unit = .dec → t.enc = s.enc) ∧
    (∃ e, t.enc.outq = s.enc.outq ++ e) ∧ (∃ e, t.dec.outq = s.dec.outq ++ e)) ∧
  (∀ (c : Byte) (s t : State), exec (.encFeed c) s = .next t → t.enc.phase = s.enc.phase ∧ t.enc.errc = s.enc.errc) ∧
  (∀ (c : Byte) (s t : State), exec (.decFeed c) s = .next t → t.dec.phase = s.dec.phase ∧ t.dec.errc = s.dec.errc) ∧
  (∀ (c : Byte) (s t : State), exec (.encFinish c) s = .next t → t.enc.errc = s.enc.errc) ∧
  (∀ (c : Byte) (s t : State), exec (.decFinish c) s = .next t →
    t.dec.errc = s.dec.errc ∧ t.dec.outq = s.dec.outq) ∧
  (∀ (c : Byte) (s t : State), exec (.encRsvd00 c) s = .next t ∨ exec (.encRsvd11 c) s = .next t →
    t.enc.gstate = s.enc.gstate ∧ t.enc.next = s.enc.next ∧ t.enc.outq = s.enc.outq) ∧
  (∀ (c : Byte) (s t : State), exec (.decRsvd00 c) s = .next t ∨ exec (.decRsvd11 c) s = .next t →
    t.dec.gstate = s.dec.gstate ∧ t.dec.next = s.dec.next ∧ t.dec.outq = s.dec.outq)

/-! ### Handshake, ports and status -/

/-- 30_encoding.md section 3 (R62): `cmd_ready` of each unit, for every value of `rst`. That a command is executed exactly when it is accepted is
stated with the clock edge and with `UnacceptedCommandHasNoEffect`. -/
def Obligations.CommandReady : Prop :=
  ∀ (s : State) (rst : Bool),
    ((s.encPorts rst).cmdReady = true ↔
      rst = false ∧ s.enc.phase = .run ∧ s.cfg.encDepth - s.enc.outq.length ≥ 3) ∧
    ((s.decPorts rst).cmdReady = true ↔
      rst = false ∧ s.dec.phase = .run ∧ s.cfg.decDepth - s.dec.outq.length ≥ 1)

/-- R68: a command presented to a unit that does not accept it has no effect, in every phase and at every fill of the
queue, for every command of the unit, reserved ones and ignored bytes too. -/
def Obligations.UnacceptedCommandHasNoEffect : Prop :=
  ∀ (i : Instr) (s : State),
    (i.unit = .enc → (s.encPorts false).cmdReady = false → exec i s = .next s) ∧
    (i.unit = .dec → (s.decPorts false).cmdReady = false → exec i s = .next s)

/-- R63: `ENC.MAXEMIT` is 3 and `DEC.MAXEMIT` is 1; no command emits more than its unit's `MAXEMIT`, and ENC.FINISH in
state 1 and DEC.FEED of a symbol in state 1, 2 or 3 emit as many. -/
def Obligations.MaxEmitIsLargestEmit : Prop :=
  (encMaxEmit = 3 ∧ decMaxEmit = 1) ∧
  (∀ (i : Instr) (s t : State), exec i s = .next t →
    t.enc.outq.length ≤ s.enc.outq.length + encMaxEmit ∧ t.dec.outq.length ≤ s.dec.outq.length + decMaxEmit) ∧
  (∀ (c : Byte) (s t : State), (s.encPorts false).cmdReady = true → s.enc.gstate = .g1 →
    exec (.encFinish c) s = .next t → t.enc.outq.length = s.enc.outq.length + encMaxEmit) ∧
  (∀ (b : Byte) (s t : State), (s.decPorts false).cmdReady = true → s.dec.gstate ≠ .g0 → symbolOf b ≠ none →
    exec (.decFeed b) s = .next t → t.dec.outq.length = s.dec.outq.length + decMaxEmit)

/-- 20_memory.md section 3 and 30_encoding.md section 3 (R47, R64): `out_valid` and, while it is 1, the byte on
`out_data`, which is the head of the queue; while it is 0 the byte is the free value of log entry 6, whatever the queue
holds (a draw: nothing is said of its value). -/
def Obligations.OutputPortShowsHead : Prop :=
  (∀ (s : State) (rst : Bool),
    ((s.encPorts rst).outValid = true ↔ rst = false ∧ s.enc.outq ≠ []) ∧
    ((s.decPorts rst).outValid = true ↔ rst = false ∧ s.dec.outq ≠ []) ∧
    ((s.encPorts rst).outValid = true → s.enc.outq.head? = some (s.encPorts rst).outData) ∧
    ((s.decPorts rst).outValid = true → s.dec.outq.head? = some (s.decPorts rst).outData) ∧
    ((s.encPorts rst).outValid = false → (s.encPorts rst).outData = Config.freeOutData .enc s.env.draws) ∧
    ((s.decPorts rst).outValid = false → (s.decPorts rst).outData = Config.freeOutData .dec s.env.draws))

/-- R27 and R65: every field of each unit's status word, with the codes of PHASE, ERRC and GSTATE (the numbers of
10_state.md sections 2 and 3), and the status port, which shows that word of the registers held since the last edge in
every cycle, with `rst = 1` too. -/
def Obligations.StatusWordFields : Prop :=
  (∀ s : State,
    (s.encStatus.extractLsb' 0 2 = s.enc.phase.bits ∧ s.encStatus.extractLsb' 2 2 = s.enc.gstate.bits ∧
      (s.encStatus.getLsbD 4 = true ↔ s.enc.outq.length = 0) ∧
      (s.encStatus.getLsbD 5 = true ↔ s.enc.phase = .done ∧ s.enc.outq.length = 0) ∧
      s.encStatus.extractLsb' 6 2 = s.enc.errc.bits) ∧
    (s.decStatus.extractLsb' 0 2 = s.dec.phase.bits ∧ s.decStatus.extractLsb' 2 2 = s.dec.gstate.bits ∧
      (s.decStatus.getLsbD 4 = true ↔ s.dec.outq.length = 0) ∧
      (s.decStatus.getLsbD 5 = true ↔ s.dec.phase = .done ∧ s.dec.outq.length = 0) ∧
      s.decStatus.extractLsb' 6 2 = s.dec.errc.bits) ∧
    (∀ rst : Bool, (s.encPorts rst).status = s.encStatus ∧ (s.decPorts rst).status = s.decStatus)) ∧
  (Phase.run.bits = 0b00#2 ∧ Phase.done.bits = 0b01#2 ∧ Phase.fault.bits = 0b10#2) ∧
  (ErrCode.noError.bits = 0b00#2 ∧ ErrCode.illegalOp.bits = 0b01#2) ∧
  (EncGroup.g0.bits = 0b00#2 ∧ EncGroup.g1.bits = 0b01#2 ∧ EncGroup.g2.bits = 0b10#2) ∧
  (DecGroup.g0.bits = 0b00#2 ∧ DecGroup.g1.bits = 0b01#2 ∧ DecGroup.g2.bits = 0b10#2 ∧ DecGroup.g3.bits = 0b11#2)

/-- 10_state.md section 5 (the spec's own inference R28): PHASE never reads 2'b11, ERRC never reads 2'b10 or 2'b11, the
encoder's GSTATE never reads 2'b11, and both ERRC fields read nonzero exactly in FAULT wherever the invariant holds. -/
def Obligations.StatusUnusedCodesNeverRead : Prop :=
  ∀ s : State,
    s.encStatus.extractLsb' 0 2 ≠ 0b11#2 ∧ s.decStatus.extractLsb' 0 2 ≠ 0b11#2 ∧
    s.encStatus.getLsbD 7 = false ∧ s.decStatus.getLsbD 7 = false ∧
    s.encStatus.extractLsb' 2 2 ≠ 0b11#2 ∧
    (s.Inv → (s.encStatus.extractLsb' 6 2 ≠ 0b00#2 ↔ s.encStatus.extractLsb' 0 2 = 0b10#2)) ∧
    (s.Inv → (s.decStatus.extractLsb' 6 2 ≠ 0b00#2 ↔ s.decStatus.extractLsb' 0 2 = 0b10#2))

/-! ### The clock step -/

/-- 30_encoding.md sections 3 and 4 (R62, R66, R69): at an event that is an edge of one unit alone, with `rst = 0`, a
command presented and no byte taken, the step is `exec` of the command the word decodes to, on the state with the event taken off the
host's list. The list of events is this model's choice (log entry 2). -/
def Obligations.StepRunsDecodedCommand : Prop :=
  (∀ (s : State) (p : Pins) (rest : List Tick), s.env.ticks = ⟨some p, none⟩ :: rest →
    p.rst = false → p.cmdValid = true → p.outReady = false →
    step s = exec (decode .enc p.cmd) { s with env := { s.env with ticks := rest, draws := s.env.draws + 1 } }) ∧
  (∀ (s : State) (p : Pins) (rest : List Tick), s.env.ticks = ⟨none, some p⟩ :: rest →
    p.rst = false → p.cmdValid = true → p.outReady = false →
    step s = exec (decode .dec p.cmd) { s with env := { s.env with ticks := rest, draws := s.env.draws + 1 } })

/-- The table word that `withFetchWord` places is the command that the very next step runs, on the port that bit 10
selects. This is the model's choice (log entries 1 and 12): the spec has no fetch (10_state.md section 7). -/
def Obligations.PresentedTableWordRuns : Prop :=
  (∀ (s : State) (w : CmdWord), decodeTableWord 16 w.toNat = some (decode .enc w) ∧
    step (s.withFetchWord 16 w.toNat) =
      exec (decode .enc w) { s with env := { s.env with draws := s.env.draws + 1 } }) ∧
  (∀ (s : State) (w : CmdWord), decodeTableWord 16 (1024 + w.toNat) = some (decode .dec w) ∧
    step (s.withFetchWord 16 (1024 + w.toNat)) =
      exec (decode .dec w) { s with env := { s.env with draws := s.env.draws + 1 } })

/-- 30_encoding.md section 3 (R66), for both units: at an edge with `rst = 1` the unit is reset; at an edge with `rst = 0` the registers become
those of the command executed on the registers before the edge (or stay, where none is presented or accepted), the
head is popped where it is valid and the host takes it, and the emitted bytes go after every byte already queued. An
edge of one unit alone leaves the other unit as it was. -/
def Obligations.ClockEdge : Prop :=
  (∀ (s : State) (p : Pins) (rest : List Tick), s.env.ticks = ⟨some p, none⟩ :: rest →
    ∃ t, step s = .next t ∧ t.cfg = s.cfg ∧ t.dec = s.dec ∧ t.env.decStream = s.env.decStream ∧ t.env.ticks = rest ∧
      (p.rst = true → t.enc = EncUnit.reset) ∧
      (p.rst = false → ∃ (u : State) (emitted : List Byte),
        (if p.cmdValid then exec (decode .enc p.cmd) s else .next s) = .next u ∧
        u.enc.outq = s.enc.outq ++ emitted ∧
        t.enc = { u.enc with
          outq := (if p.outReady ∧ 0 < s.enc.outq.length then s.enc.outq.tail else s.enc.outq) ++ emitted } ∧
        t.env.encStream = s.env.encStream ++ (if p.outReady then s.enc.outq.take 1 else []))) ∧
  (∀ (s : State) (p : Pins) (rest : List Tick), s.env.ticks = ⟨none, some p⟩ :: rest →
    ∃ t, step s = .next t ∧ t.cfg = s.cfg ∧ t.enc = s.enc ∧ t.env.encStream = s.env.encStream ∧ t.env.ticks = rest ∧
      (p.rst = true → t.dec = DecUnit.reset) ∧
      (p.rst = false → ∃ (u : State) (emitted : List Byte),
        (if p.cmdValid then exec (decode .dec p.cmd) s else .next s) = .next u ∧
        u.dec.outq = s.dec.outq ++ emitted ∧
        t.dec = { u.dec with
          outq := (if p.outReady ∧ 0 < s.dec.outq.length then s.dec.outq.tail else s.dec.outq) ++ emitted } ∧
        t.env.decStream = s.env.decStream ++ (if p.outReady then s.dec.outq.take 1 else [])))

/-- An event in which both units have an edge is the encoder's edge and the decoder's edge, in either order, each on
its own unit (20_memory.md section 6, R56). -/
def Obligations.SimultaneousEdgesCommute : Prop :=
  ∀ (s : State) (p q : Pins),
    andThen (encEdge p s) (decEdge q) = andThen (decEdge q s) (encEdge p) ∧
    (∀ rest : List Tick, s.env.ticks = ⟨some p, some q⟩ :: rest →
      step s = andThen (encEdge p s.takeTick) (decEdge q))

/-- 30_encoding.md section 3 (the spec's own inference R67): the clock level and the transaction level agree. Every
step is a sequence of at most four of the actions `Reset`, `Accept` and `Pop`, each enabled when its turn comes, on the
state with the event taken; and every enabled action is a step for some pins of its unit. -/
def Obligations.TransactionLevelEquivalence : Prop :=
  (∀ s t : State, step s = .next t → ∃ as : List Action, as.length ≤ 4 ∧ actions as s.takeTick = some t) ∧
  (∀ (a : Action) (s t : State), a.effect s = some t →
    ∃ e : Tick, step (s.pushTick e) = .next { t with env := { t.env with draws := t.env.draws + 1 } })

/-- 60_exceptions.md sections 1 and 4 and 30_encoding.md section 3 (R62, R66): at an edge where a unit is not ready
before the pop, a command presented with a pop is not executed even if the pop frees an entry: the registers keep
their values and only the head leaves the queue. -/
def Obligations.SpaceCountedBeforePop : Prop :=
  (∀ (s : State) (p : Pins), s.encReady = false → p.rst = false → p.outReady = true →
    encEdge p s = .next { s with
      enc := { s.enc with outq := s.enc.outq.tail },
      env := { s.env with encStream := s.env.encStream ++ s.enc.outq.take 1 } }) ∧
  (∀ (s : State) (p : Pins), s.decReady = false → p.rst = false → p.outReady = true →
    decEdge p s = .next { s with
      dec := { s.dec with outq := s.dec.outq.tail },
      env := { s.env with decStream := s.env.decStream ++ s.dec.outq.take 1 } })

/-- 70_reset_and_hazards.md section 1 (R122): a reset edge of a unit, whatever its phase, queue and other pins, leaves the reset values in every register
and an empty queue. The host's record of the run starts anew, which is the model's choice (log entry 8). -/
def Obligations.ResetEdge : Prop :=
  (∀ (s : State) (p : Pins), p.rst = true →
    ∃ t, encEdge p s = .next t ∧ t.enc.gstate = .g0 ∧ t.enc.next = 0#6 ∧ t.enc.phase = .run ∧
      t.enc.errc = .noError ∧ t.enc.outq = [] ∧ t.dec = s.dec ∧ t.cfg = s.cfg ∧ t.env = { s.env with encStream := [] }) ∧
  (∀ (s : State) (p : Pins), p.rst = true →
    ∃ t, decEdge p s = .next t ∧ t.dec.gstate = .g0 ∧ t.dec.next = 0#8 ∧ t.dec.phase = .run ∧
      t.dec.errc = .noError ∧ t.dec.outq = [] ∧ t.enc = s.enc ∧ t.cfg = s.cfg ∧ t.env = { s.env with decStream := [] })

/-- 60_exceptions.md section 4 and 70_reset_and_hazards.md section 1 (R112, and the spec's own inferences R123 and
R124): in a cycle with `rst = 1` nothing is ready or valid and the command and the pop of that cycle make no
difference; right after a reset edge the unit is ready, its queue is empty and its status reads 0x10, for all legal
queue depths. -/
def Obligations.ResetWinsThenReady : Prop :=
  (∀ s : State, (s.encPorts true).cmdReady = false ∧ (s.encPorts true).outValid = false ∧
    (s.decPorts true).cmdReady = false ∧ (s.decPorts true).outValid = false) ∧
  (∀ (s : State) (p q : Pins), p.rst = true → q.rst = true →
    encEdge p s = encEdge q s ∧ decEdge p s = decEdge q s) ∧
  (∀ (s t : State) (p : Pins), s.cfg.Wf → p.rst = true → encEdge p s = .next t →
    (t.encPorts false).cmdReady = true ∧ (t.encPorts false).outValid = false ∧ t.encStatus = 0x10#8) ∧
  (∀ (s t : State) (p : Pins), s.cfg.Wf → p.rst = true → decEdge p s = .next t →
    (t.decPorts false).cmdReady = true ∧ (t.decPorts false).outValid = false ∧ t.decStatus = 0x10#8)

/-- 10_state.md section 6 (R30): the state after reset, with the status words it gives. The queue depths are the
reference values of 00_scope.md R6, the model's choice (log entry 4). -/
def Obligations.ResetState : Prop :=
  State.reset.enc = { gstate := .g0, next := 0#6, phase := .run, errc := .noError, outq := [] } ∧
  State.reset.dec = { gstate := .g0, next := 0#8, phase := .run, errc := .noError, outq := [] } ∧
  State.reset.encStatus = 0b00010000#8 ∧ State.reset.decStatus = 0b00010000#8 ∧
  State.reset.cfg = { encDepth := 4, decDepth := 4 }

/-! ### Invariants and whole-machine rules -/

/-- The state after reset meets the invariant. -/
def Obligations.ResetMeetsInvariant : Prop := State.reset.Inv

/-- Every step keeps the invariant (10_state.md R16 to R25, 20_memory.md R46; the spec's own inferences): the legal
queue depths, ERRC nonzero exactly in FAULT, no queue above its depth, the zero bits of NEXT in every group state, and
GSTATE and NEXT clear in DONE. From every state that meets it, for every input. -/
def Obligations.StepKeepsInvariant : Prop :=
  ∀ s t : State, s.Inv → step s = .next t → t.Inv

/-- Every step answers a next state: no command, no input and no state makes the machine stop (40_encoder.md R89,
41_decoder.md R103, 60_exceptions.md section 1). -/
def Obligations.StepAlwaysAnswersNext : Prop :=
  ∀ s : State, ∃ t, step s = .next t ∧ t.cfg = s.cfg ∧ t.env.ticks = s.env.ticks.tail

/-- 60_exceptions.md section 3 and 10_state.md section 4 (R24, R110, R111): how PHASE changes in a step. A unit leaves
RUN only by an accepted FINISH (to DONE) or an accepted reserved command (to FAULT), and leaves DONE and FAULT only by
a reset edge; without one, a unit in DONE or FAULT keeps GSTATE, NEXT, PHASE and ERRC. -/
def Obligations.PhaseTransitions : Prop :=
  (∀ s t : State, step s = .next t →
    (t.enc.phase = .done → s.enc.phase = .done ∨ ∃ b, s.encAccepts = some (.encFinish b)) ∧
    (t.enc.phase = .fault → s.enc.phase = .fault ∨
      ∃ b, s.encAccepts = some (.encRsvd00 b) ∨ s.encAccepts = some (.encRsvd11 b)) ∧
    (s.enc.phase ≠ .run → resets s.encPins = true ∧ t.enc = EncUnit.reset ∨
      resets s.encPins = false ∧ t.enc.gstate = s.enc.gstate ∧ t.enc.next = s.enc.next ∧
        t.enc.phase = s.enc.phase ∧ t.enc.errc = s.enc.errc)) ∧
  (∀ s t : State, step s = .next t →
    (t.dec.phase = .done → s.dec.phase = .done ∨ ∃ b, s.decAccepts = some (.decFinish b)) ∧
    (t.dec.phase = .fault → s.dec.phase = .fault ∨
      ∃ b, s.decAccepts = some (.decRsvd00 b) ∨ s.decAccepts = some (.decRsvd11 b)) ∧
    (s.dec.phase ≠ .run → resets s.decPins = true ∧ t.dec = DecUnit.reset ∨
      resets s.decPins = false ∧ t.dec.gstate = s.dec.gstate ∧ t.dec.next = s.dec.next ∧
        t.dec.phase = s.dec.phase ∧ t.dec.errc = s.dec.errc))

/-- 40_encoder.md section 3 (the spec's own inference R86, and R88): every byte that a command appends to the
encoder's queue is an entry of ALPHA or the padding byte 0x3D; a line break is neither. -/
def Obligations.EncoderAlphabetClosure : Prop :=
  (∀ (i : Instr) (s t : State), exec i s = .next t →
    ∃ e, t.enc.outq = s.enc.outq ++ e ∧ ∀ b ∈ e, encoderChar b) ∧
  ¬ encoderChar 0x0A#8 ∧ ¬ encoderChar 0x0D#8

/-- Every step keeps the closure of everything the encoder's run has put out or still holds (40_encoder.md section 3,
the spec's own inference R86), from every state that has it. -/
def Obligations.StepKeepsAlphabetClosure : Prop :=
  ∀ s t : State, (∀ b ∈ s.encOutput, encoderChar b) → step s = .next t → ∀ b ∈ t.encOutput, encoderChar b

/-- 60_exceptions.md section 7 (R119): a unit with no command presented and nothing to pop holds its state, however many steps are taken and
whatever the other unit does. -/
def Obligations.IdleUnitHoldsState : Prop :=
  (∀ (k : Nat) (s t : State),
    (∀ e ∈ s.env.ticks, ∀ p, e.enc = some p →
      p.rst = false ∧ p.cmdValid = false ∧ (p.outReady = false ∨ s.enc.outq = [])) →
    steps k s = .next t → t.enc = s.enc ∧ t.env.encStream = s.env.encStream) ∧
  (∀ (k : Nat) (s t : State),
    (∀ e ∈ s.env.ticks, ∀ p, e.dec = some p →
      p.rst = false ∧ p.cmdValid = false ∧ (p.outReady = false ∨ s.dec.outq = [])) →
    steps k s = .next t → t.dec = s.dec ∧ t.env.decStream = s.env.decStream)

/-- 60_exceptions.md sections 2 and 3 (R109, R111): a unit in DONE or FAULT that is not reset neither loses nor adds a
byte of output over any number of steps, whatever is presented to it, and keeps its registers. -/
def Obligations.OutputSurvivesEndOfRun : Prop :=
  (∀ (k : Nat) (s t : State), s.enc.phase ≠ .run → (∀ e ∈ s.env.ticks, ∀ p, e.enc = some p → p.rst = false) →
    steps k s = .next t → t.encOutput = s.encOutput ∧ t.enc.phase = s.enc.phase ∧ t.enc.errc = s.enc.errc ∧
      t.enc.gstate = s.enc.gstate ∧ t.enc.next = s.enc.next) ∧
  (∀ (k : Nat) (s t : State), s.dec.phase ≠ .run → (∀ e ∈ s.env.ticks, ∀ p, e.dec = some p → p.rst = false) →
    steps k s = .next t → t.decOutput = s.decOutput ∧ t.dec.phase = s.dec.phase ∧ t.dec.errc = s.dec.errc ∧
      t.dec.gstate = s.dec.gstate ∧ t.dec.next = s.dec.next)

/-- 70_reset_and_hazards.md section 3 (R128, with R64): a host that pops at enough edges receives every queued byte in
order, in every phase; the registers keep their values, and a unit in RUN is then ready. -/
def Obligations.DrainDeliversQueue : Prop :=
  (∀ (n : Nat) (s : State), s.env.ticks = List.replicate n (tickOf .enc popPins) → s.enc.outq.length ≤ n →
    ∃ t, steps n s = .next t ∧ t.env.encStream = s.env.encStream ++ s.enc.outq ∧
      t.enc = { s.enc with outq := [] } ∧ (s.cfg.Wf → s.enc.phase = .run → (t.encPorts false).cmdReady = true)) ∧
  (∀ (n : Nat) (s : State), s.env.ticks = List.replicate n (tickOf .dec popPins) → s.dec.outq.length ≤ n →
    ∃ t, steps n s = .next t ∧ t.env.decStream = s.env.decStream ++ s.dec.outq ∧
      t.dec = { s.dec with outq := [] } ∧ (s.cfg.Wf → s.dec.phase = .run → (t.decPorts false).cmdReady = true))

/-- 20_memory.md section 6 (R56): no command to one unit changes the state of the other. Two machines that agree on one unit, its queue depth,
its run's record and its pins at every event agree on that unit and its record after any number of steps, whatever the
other unit holds and is given. -/
def Obligations.UnitsAreIndependent : Prop :=
  (∀ (k : Nat) (s s' t t' : State), s.cfg.encDepth = s'.cfg.encDepth → s.enc = s'.enc →
    s.env.encStream = s'.env.encStream → s.env.ticks.map Tick.enc = s'.env.ticks.map Tick.enc →
    steps k s = .next t → steps k s' = .next t' → t.enc = t'.enc ∧ t.env.encStream = t'.env.encStream) ∧
  (∀ (k : Nat) (s s' t t' : State), s.cfg.decDepth = s'.cfg.decDepth → s.dec = s'.dec →
    s.env.decStream = s'.env.decStream → s.env.ticks.map Tick.dec = s'.env.ticks.map Tick.dec →
    steps k s = .next t → steps k s' = .next t' → t.dec = t'.dec ∧ t.env.decStream = t'.env.decStream)

/-- 10_state.md sections 2 and 3 (the spec's own inferences R19 and R23): the value of NEXT in group state 0 is never
read. Two machines that differ only in it show the same output, queue, status and readiness after any number of
steps. -/
def Obligations.StaleAccumulatorUnobservable : Prop :=
  (∀ (k : Nat) (s t t' : State) (v : Symbol), s.enc.gstate = .g0 → steps k s = .next t →
    steps k { s with enc := { s.enc with next := v } } = .next t' →
    t'.env = t.env ∧ t'.enc.outq = t.enc.outq ∧ t'.dec = t.dec ∧ t'.encStatus = t.encStatus ∧
      (t'.encPorts false).cmdReady = (t.encPorts false).cmdReady) ∧
  (∀ (k : Nat) (s t t' : State) (v : Byte), s.dec.gstate = .g0 → steps k s = .next t →
    steps k { s with dec := { s.dec with next := v } } = .next t' →
    t'.env = t.env ∧ t'.dec.outq = t.dec.outq ∧ t'.enc = t.enc ∧ t'.decStatus = t.decStatus ∧
      (t'.decPorts false).cmdReady = (t.decPorts false).cmdReady)

/-! ### What a run computes -/

/-- 40_encoder.md section 3 (the spec's own inferences R84 and R87): whatever the host does (any pins at any events of
either unit, any acceptance and pop timing, resets included), the bytes the encoder's run has put out or still queues
are the base64 text of the bytes it accepted since the reset, with the final partial group and padding once FINISH was
accepted and without it before. -/
def Obligations.EncoderRunIsBase64 : Prop :=
  ∀ (k : Nat) (s t : State), s.EncRunStart → steps k s = .next t →
    t.enc.phase = (encHistory k .start s).phase ∧
    t.encOutput = if t.enc.phase = .done then base64 (encHistory k .start s).fed
      else base64Open (encHistory k .start s).fed

/-- 41_decoder.md section 4 (the spec's own inferences R98, R99, R101 and R104, with R103): whatever the host does, the
bytes the decoder's run has put out or still queues are those that the symbols among the accepted bytes complete,
ignored bytes and padding skipped and dangling bits dropped. -/
def Obligations.DecoderRunIsInverse : Prop :=
  ∀ (k : Nat) (s t : State), s.DecRunStart → steps k s = .next t →
    t.dec.phase = (decHistory k .start s).phase ∧
    t.decOutput = symbolBytes (symbolsOf (decHistory k .start s).fed)

/-- 70_reset_and_hazards.md section 3 (R130, with 20_memory.md R48 and the spec's own inference R108): when a run has
ended cleanly, the bytes the host popped since the reset are, for the encoder, the base64 text of the bytes fed, and
for the decoder the bytes their symbols complete; when it has ended in a fault, they are all the bytes that the
commands before the fault complete. The END bit of the status word reads 1 exactly at a clean end. -/
def Obligations.EndOfRunDeliversWholeOutput : Prop :=
  (∀ (k : Nat) (s t : State), s.EncRunStart → steps k s = .next t →
    (t.encStatus.getLsbD 5 = true ↔ t.enc.EndedCleanly) ∧
    (t.enc.EndedCleanly → t.env.encStream = base64 (encHistory k .start s).fed) ∧
    (t.enc.EndedInFault → t.env.encStream = base64Open (encHistory k .start s).fed)) ∧
  (∀ (k : Nat) (s t : State), s.DecRunStart → steps k s = .next t →
    (t.decStatus.getLsbD 5 = true ↔ t.dec.EndedCleanly) ∧
    (t.dec.EndedCleanly ∨ t.dec.EndedInFault →
      t.env.decStream = symbolBytes (symbolsOf (decHistory k .start s).fed)))

/-- 40_encoder.md section 3 (the spec's own inference R85, which corrects the source as 90_conflicts.md C1 says): after
`n` FEEDs and FINISH the output has `4 * ceil(n/3)` bytes and ends with 0, 2 or 1 `=` as `n mod 3` is 0, 1 or 2, with no
other `=`; before FINISH it has `n + floor(n/3)` bytes and no `=`, and GSTATE is the number of bytes of the current
3-byte group that were consumed, `n mod 3` (10_state.md section 2, R15). -/
def Obligations.EncoderLengthAndPadding : Prop :=
  ∀ (k : Nat) (s t : State), s.EncRunStart → steps k s = .next t →
    let n := (encHistory k .start s).fed.length
    (t.enc.phase = .done → t.encOutput.length = 4 * ((n + 2) / 3) ∧
      ∃ body, t.encOutput = body ++ List.replicate (if n % 3 = 0 then 0 else if n % 3 = 1 then 2 else 1) padByte ∧
        padByte ∉ body) ∧
    (t.enc.phase ≠ .done → t.encOutput.length = n + n / 3 ∧ padByte ∉ t.encOutput ∧
      t.enc.gstate.bits = BitVec.ofNat 2 (n % 3))

/-- 41_decoder.md section 4 (the spec's own inference R98): after `m` symbols the decoder has emitted `floor(3m/4)`
bytes, and GSTATE is `m mod 4` until FINISH. -/
def Obligations.DecoderByteCount : Prop :=
  ∀ (k : Nat) (s t : State), s.DecRunStart → steps k s = .next t →
    let m := (symbolsOf (decHistory k .start s).fed).length
    t.decOutput.length = 3 * m / 4 ∧ (t.dec.phase ≠ .done → t.dec.gstate.bits = BitVec.ofNat 2 m)

/-- 41_decoder.md section 4 (the spec's own inferences R99 and R100): two decoder runs whose accepted bytes are the
same but for ignored bytes (whitespace, `=`, invalid bytes, anywhere) give the same output and,
before FINISH, the same GSTATE and NEXT. -/
def Obligations.DecoderLeniency : Prop :=
  ∀ (k k' : Nat) (s s' t t' : State), s.DecRunStart → s'.DecRunStart → steps k s = .next t → steps k' s' = .next t' →
    symbolsOf (decHistory k .start s).fed = symbolsOf (decHistory k' .start s').fed →
    t.decOutput = t'.decOutput ∧
    (t.dec.phase ≠ .done → t'.dec.phase ≠ .done → t.dec.gstate = t'.dec.gstate ∧ t.dec.next = t'.dec.next)

/-- 41_decoder.md section 4 (the spec's own inference R102): for every byte sequence, of any length, an encoder run
that ended cleanly and a decoder run fed exactly the bytes the host popped from it give back the bytes fed to the
encoder, whatever the two hosts' timing. -/
def Obligations.RoundTrip : Prop :=
  ∀ (k k' : Nat) (s t s' t' : State), s.EncRunStart → steps k s = .next t → t.enc.EndedCleanly →
    s'.DecRunStart → steps k' s' = .next t' → (decHistory k' .start s').fed = t.env.encStream →
    t'.decOutput = (encHistory k .start s).fed

/-- 70_reset_and_hazards.md section 5 (the spec's own inference R133): whatever the queue depth, `n` bytes accepted by
the encoder's run need at least `n + floor(n/3)` steps less the bytes still in the queue. -/
def Obligations.EncoderThroughput : Prop :=
  ∀ (k : Nat) (s t : State), s.EncRunStart → steps k s = .next t →
    (encHistory k .start s).fed.length + (encHistory k .start s).fed.length / 3 ≤ k + t.enc.outq.length ∧
    t.enc.outq.length ≤ s.cfg.encDepth
end

