-- ==== Sys2Proof/Laws/Bits.lean ====
section
/-! SUPPORT. The bit fields of the commands against the slices of a 24-bit group (20_memory.md R50): each field the
encoder and the decoder put together is the slice the group law names. -/

namespace Sys2Proof.Machine

/-! ### Bits of a concatenation, at the widths that occur

The width of a concatenation is written as a numeral where the machine names it, so the library's lemma does not
match by itself. -/

theorem getLsbD_append_2_4 (x : BitVec 2) (y : BitVec 4) (i : Nat) :
    BitVec.getLsbD (w := 6) (x ++ y) i = if i < 4 then y.getLsbD i else x.getLsbD (i - 4) :=
  BitVec.getLsbD_append

theorem getLsbD_append_4_2 (x : BitVec 4) (y : BitVec 2) (i : Nat) :
    BitVec.getLsbD (w := 6) (x ++ y) i = if i < 2 then y.getLsbD i else x.getLsbD (i - 2) :=
  BitVec.getLsbD_append

theorem getLsbD_append_8_8 (x : BitVec 8) (y : BitVec 8) (i : Nat) :
    BitVec.getLsbD (w := 16) (x ++ y) i = if i < 8 then y.getLsbD i else x.getLsbD (i - 8) :=
  BitVec.getLsbD_append

theorem getLsbD_append_16_8 (x : BitVec 16) (y : BitVec 8) (i : Nat) :
    BitVec.getLsbD (w := 24) (x ++ y) i = if i < 8 then y.getLsbD i else x.getLsbD (i - 8) :=
  BitVec.getLsbD_append

theorem getLsbD_append_6_2 (x : BitVec 6) (y : BitVec 2) (i : Nat) :
    BitVec.getLsbD (w := 8) (x ++ y) i = if i < 2 then y.getLsbD i else x.getLsbD (i - 2) :=
  BitVec.getLsbD_append

theorem getLsbD_append_4_4 (x : BitVec 4) (y : BitVec 4) (i : Nat) :
    BitVec.getLsbD (w := 8) (x ++ y) i = if i < 4 then y.getLsbD i else x.getLsbD (i - 4) :=
  BitVec.getLsbD_append

theorem getLsbD_append_2_6 (x : BitVec 2) (y : BitVec 6) (i : Nat) :
    BitVec.getLsbD (w := 8) (x ++ y) i = if i < 6 then y.getLsbD i else x.getLsbD (i - 6) :=
  BitVec.getLsbD_append

theorem getLsbD_append_6_6 (x : BitVec 6) (y : BitVec 6) (i : Nat) :
    BitVec.getLsbD (w := 12) (x ++ y) i = if i < 6 then y.getLsbD i else x.getLsbD (i - 6) :=
  BitVec.getLsbD_append

theorem getLsbD_append_12_6 (x : BitVec 12) (y : BitVec 6) (i : Nat) :
    BitVec.getLsbD (w := 18) (x ++ y) i = if i < 6 then y.getLsbD i else x.getLsbD (i - 6) :=
  BitVec.getLsbD_append

theorem getLsbD_append_18_6 (x : BitVec 18) (y : BitVec 6) (i : Nat) :
    BitVec.getLsbD (w := 24) (x ++ y) i = if i < 6 then y.getLsbD i else x.getLsbD (i - 6) :=
  BitVec.getLsbD_append

/-- The indices of a 6-bit value. -/
theorem index6 {i : Nat} (h : i < 6) : i = 0 ∨ i = 1 ∨ i = 2 ∨ i = 3 ∨ i = 4 ∨ i = 5 := by omega

/-- The indices of an 8-bit value. -/
theorem index8 {i : Nat} (h : i < 8) :
    i = 0 ∨ i = 1 ∨ i = 2 ∨ i = 3 ∨ i = 4 ∨ i = 5 ∨ i = 6 ∨ i = 7 := by omega

/-! ### The encoder: the index of each character is a slice of the group -/

/-- The index of R78, as R84 writes it. -/
theorem encSecondIndex (a b : Byte) :
    encLow2Carry a ||| encTop4 b = a.extractLsb' 0 2 ++ b.extractLsb' 4 4 := by
  apply BitVec.eq_of_getLsbD_eq
  intro i hi
  rcases index6 hi with rfl | rfl | rfl | rfl | rfl | rfl <;>
    simp [-BitVec.getLsbD_eq_getElem, encLow2Carry, encTop4, getLsbD_append_2_4]

/-- `G[23:18]` is the index of R77. -/
theorem groupIndex0 (a b c : Byte) :
    BitVec.extractLsb' (n := 24) 18 6 (a ++ b ++ c) = encTop6 a := by
  apply BitVec.eq_of_getLsbD_eq
  intro i hi
  rcases index6 hi with rfl | rfl | rfl | rfl | rfl | rfl <;>
    simp [-BitVec.getLsbD_eq_getElem, encTop6, getLsbD_append_8_8, getLsbD_append_16_8]

/-- `G[17:12]` is the index of R78. -/
theorem groupIndex1 (a b c : Byte) :
    BitVec.extractLsb' (n := 24) 12 6 (a ++ b ++ c) = encLow2Carry a ||| encTop4 b := by
  apply BitVec.eq_of_getLsbD_eq
  intro i hi
  rcases index6 hi with rfl | rfl | rfl | rfl | rfl | rfl <;>
    simp [-BitVec.getLsbD_eq_getElem, encLow2Carry, encTop4, getLsbD_append_2_4, getLsbD_append_8_8, getLsbD_append_16_8]

/-- `G[11:6]` is the first index of R79. -/
theorem groupIndex2 (a b c : Byte) :
    BitVec.extractLsb' (n := 24) 6 6 (a ++ b ++ c) = encLow4Carry b ||| encTop2 c := by
  apply BitVec.eq_of_getLsbD_eq
  intro i hi
  rcases index6 hi with rfl | rfl | rfl | rfl | rfl | rfl <;>
    simp [-BitVec.getLsbD_eq_getElem, encLow4Carry, encTop2, getLsbD_append_4_2, getLsbD_append_8_8, getLsbD_append_16_8]

/-- `G[5:0]` is the second index of R79. -/
theorem groupIndex3 (a b c : Byte) :
    BitVec.extractLsb' (n := 24) 0 6 (a ++ b ++ c) = encLow6 c := by
  apply BitVec.eq_of_getLsbD_eq
  intro i hi
  rcases index6 hi with rfl | rfl | rfl | rfl | rfl | rfl <;>
    simp [-BitVec.getLsbD_eq_getElem, encLow6, getLsbD_append_16_8]

/-! ### The decoder: each byte is a slice of the group -/

/-- The byte of R94. -/
theorem decSecondByte (a b : Symbol) :
    decCarry6 a ||| decTop2 b = a ++ b.extractLsb' 4 2 := by
  apply BitVec.eq_of_getLsbD_eq
  intro i hi
  rcases index8 hi with rfl | rfl | rfl | rfl | rfl | rfl | rfl | rfl <;>
    simp [-BitVec.getLsbD_eq_getElem, decCarry6, decTop2, getLsbD_append_6_2]

/-- The byte of R95. -/
theorem decThirdByte (a b : Symbol) :
    decCarry4 a ||| decTop4 b = a.extractLsb' 0 4 ++ b.extractLsb' 2 4 := by
  apply BitVec.eq_of_getLsbD_eq
  intro i hi
  rcases index8 hi with rfl | rfl | rfl | rfl | rfl | rfl | rfl | rfl <;>
    simp [-BitVec.getLsbD_eq_getElem, decCarry4, decTop4, getLsbD_append_4_4]

/-- `H[23:16]` is the byte of R94. -/
theorem groupByte0 (a b c d : Symbol) :
    BitVec.extractLsb' (n := 24) 16 8 (a ++ b ++ c ++ d) = decCarry6 a ||| decTop2 b := by
  apply BitVec.eq_of_getLsbD_eq
  intro i hi
  rcases index8 hi with rfl | rfl | rfl | rfl | rfl | rfl | rfl | rfl <;>
    simp [-BitVec.getLsbD_eq_getElem, decCarry6, decTop2, getLsbD_append_6_6, getLsbD_append_12_6, getLsbD_append_18_6]

/-- `H[15:8]` is the byte of R95. -/
theorem groupByte1 (a b c d : Symbol) :
    BitVec.extractLsb' (n := 24) 8 8 (a ++ b ++ c ++ d) = decCarry4 b ||| decTop4 c := by
  apply BitVec.eq_of_getLsbD_eq
  intro i hi
  rcases index8 hi with rfl | rfl | rfl | rfl | rfl | rfl | rfl | rfl <;>
    simp [-BitVec.getLsbD_eq_getElem, decCarry4, decTop4, getLsbD_append_6_6, getLsbD_append_12_6, getLsbD_append_18_6]

/-- `H[7:0]` is the byte of R96. -/
theorem groupByte2 (a b c d : Symbol) :
    BitVec.extractLsb' (n := 24) 0 8 (a ++ b ++ c ++ d) = decCarry2 c ||| decAll6 d := by
  apply BitVec.eq_of_getLsbD_eq
  intro i hi
  rcases index8 hi with rfl | rfl | rfl | rfl | rfl | rfl | rfl | rfl <;>
    simp [-BitVec.getLsbD_eq_getElem, decCarry2, decAll6, getLsbD_append_12_6, getLsbD_append_18_6]

end Sys2Proof.Machine
end

