-- ==== Sys2Proof/Laws/State.lean ====
section
/-! SUPPORT. One lemma per field and update of the state, each true by rfl, so that no proof unfolds a record update. -/

namespace Sys2Proof.Machine

section UnitRegs

variable {G : Type} {w : Nat} (u : UnitRegs G w)

@[simp] theorem UnitRegs.setGState_gstate (g : G) : (u.setGState g).gstate = g := rfl
@[simp] theorem UnitRegs.setGState_next (g : G) : (u.setGState g).next = u.next := rfl
@[simp] theorem UnitRegs.setGState_phase (g : G) : (u.setGState g).phase = u.phase := rfl
@[simp] theorem UnitRegs.setGState_errc (g : G) : (u.setGState g).errc = u.errc := rfl
@[simp] theorem UnitRegs.setGState_outq (g : G) : (u.setGState g).outq = u.outq := rfl

@[simp] theorem UnitRegs.setNext_gstate (v : BitVec w) : (u.setNext v).gstate = u.gstate := rfl
@[simp] theorem UnitRegs.setNext_next (v : BitVec w) : (u.setNext v).next = v := rfl
@[simp] theorem UnitRegs.setNext_phase (v : BitVec w) : (u.setNext v).phase = u.phase := rfl
@[simp] theorem UnitRegs.setNext_errc (v : BitVec w) : (u.setNext v).errc = u.errc := rfl
@[simp] theorem UnitRegs.setNext_outq (v : BitVec w) : (u.setNext v).outq = u.outq := rfl

@[simp] theorem UnitRegs.setPhase_gstate (p : Phase) : (u.setPhase p).gstate = u.gstate := rfl
@[simp] theorem UnitRegs.setPhase_next (p : Phase) : (u.setPhase p).next = u.next := rfl
@[simp] theorem UnitRegs.setPhase_phase (p : Phase) : (u.setPhase p).phase = p := rfl
@[simp] theorem UnitRegs.setPhase_errc (p : Phase) : (u.setPhase p).errc = u.errc := rfl
@[simp] theorem UnitRegs.setPhase_outq (p : Phase) : (u.setPhase p).outq = u.outq := rfl

@[simp] theorem UnitRegs.setErrc_gstate (e : ErrCode) : (u.setErrc e).gstate = u.gstate := rfl
@[simp] theorem UnitRegs.setErrc_next (e : ErrCode) : (u.setErrc e).next = u.next := rfl
@[simp] theorem UnitRegs.setErrc_phase (e : ErrCode) : (u.setErrc e).phase = u.phase := rfl
@[simp] theorem UnitRegs.setErrc_errc (e : ErrCode) : (u.setErrc e).errc = e := rfl
@[simp] theorem UnitRegs.setErrc_outq (e : ErrCode) : (u.setErrc e).outq = u.outq := rfl

@[simp] theorem UnitRegs.emit_gstate (v : Byte) : (u.emit v).gstate = u.gstate := rfl
@[simp] theorem UnitRegs.emit_next (v : Byte) : (u.emit v).next = u.next := rfl
@[simp] theorem UnitRegs.emit_phase (v : Byte) : (u.emit v).phase = u.phase := rfl
@[simp] theorem UnitRegs.emit_errc (v : Byte) : (u.emit v).errc = u.errc := rfl
@[simp] theorem UnitRegs.emit_outq (v : Byte) : (u.emit v).outq = u.outq ++ [v] := rfl

@[simp] theorem UnitRegs.dropHead_gstate : (u.dropHead).gstate = u.gstate := rfl
@[simp] theorem UnitRegs.dropHead_next : (u.dropHead).next = u.next := rfl
@[simp] theorem UnitRegs.dropHead_phase : (u.dropHead).phase = u.phase := rfl
@[simp] theorem UnitRegs.dropHead_errc : (u.dropHead).errc = u.errc := rfl
@[simp] theorem UnitRegs.dropHead_outq : (u.dropHead).outq = u.outq.tail := rfl

@[simp] theorem UnitRegs.endRun_gstate (g0 : G) : (u.endRun g0).gstate = g0 := rfl
@[simp] theorem UnitRegs.endRun_next (g0 : G) : (u.endRun g0).next = 0 := rfl
@[simp] theorem UnitRegs.endRun_phase (g0 : G) : (u.endRun g0).phase = .done := rfl
@[simp] theorem UnitRegs.endRun_errc (g0 : G) : (u.endRun g0).errc = u.errc := rfl
@[simp] theorem UnitRegs.endRun_outq (g0 : G) : (u.endRun g0).outq = u.outq := rfl

@[simp] theorem UnitRegs.raiseFault_gstate (e : ErrCode) : (u.raiseFault e).gstate = u.gstate := rfl
@[simp] theorem UnitRegs.raiseFault_next (e : ErrCode) : (u.raiseFault e).next = u.next := rfl
@[simp] theorem UnitRegs.raiseFault_phase (e : ErrCode) : (u.raiseFault e).phase = .fault := rfl
@[simp] theorem UnitRegs.raiseFault_errc (e : ErrCode) : (u.raiseFault e).errc = e := rfl
@[simp] theorem UnitRegs.raiseFault_outq (e : ErrCode) : (u.raiseFault e).outq = u.outq := rfl

@[simp] theorem UnitRegs.resetUnit_gstate (g0 : G) : (u.resetUnit g0).gstate = g0 := rfl
@[simp] theorem UnitRegs.resetUnit_next (g0 : G) : (u.resetUnit g0).next = 0 := rfl
@[simp] theorem UnitRegs.resetUnit_phase (g0 : G) : (u.resetUnit g0).phase = .run := rfl
@[simp] theorem UnitRegs.resetUnit_errc (g0 : G) : (u.resetUnit g0).errc = .noError := rfl
@[simp] theorem UnitRegs.resetUnit_outq (g0 : G) : (u.resetUnit g0).outq = [] := rfl

end UnitRegs

section State

variable (s : State)

@[simp] theorem State.setEnc_cfg (u : EncUnit) : (s.setEnc u).cfg = s.cfg := rfl
@[simp] theorem State.setEnc_enc (u : EncUnit) : (s.setEnc u).enc = u := rfl
@[simp] theorem State.setEnc_dec (u : EncUnit) : (s.setEnc u).dec = s.dec := rfl
@[simp] theorem State.setEnc_ticks (u : EncUnit) : (s.setEnc u).env.ticks = s.env.ticks := rfl
@[simp] theorem State.setEnc_encStream (u : EncUnit) : (s.setEnc u).env.encStream = s.env.encStream := rfl
@[simp] theorem State.setEnc_decStream (u : EncUnit) : (s.setEnc u).env.decStream = s.env.decStream := rfl
@[simp] theorem State.setEnc_draws (u : EncUnit) : (s.setEnc u).env.draws = s.env.draws := rfl
@[simp] theorem State.setEnc_env (u : EncUnit) : (s.setEnc u).env = s.env := rfl

@[simp] theorem State.setDec_cfg (u : DecUnit) : (s.setDec u).cfg = s.cfg := rfl
@[simp] theorem State.setDec_enc (u : DecUnit) : (s.setDec u).enc = s.enc := rfl
@[simp] theorem State.setDec_dec (u : DecUnit) : (s.setDec u).dec = u := rfl
@[simp] theorem State.setDec_ticks (u : DecUnit) : (s.setDec u).env.ticks = s.env.ticks := rfl
@[simp] theorem State.setDec_encStream (u : DecUnit) : (s.setDec u).env.encStream = s.env.encStream := rfl
@[simp] theorem State.setDec_decStream (u : DecUnit) : (s.setDec u).env.decStream = s.env.decStream := rfl
@[simp] theorem State.setDec_draws (u : DecUnit) : (s.setDec u).env.draws = s.env.draws := rfl
@[simp] theorem State.setDec_env (u : DecUnit) : (s.setDec u).env = s.env := rfl

@[simp] theorem State.setEncStream_cfg (bs : List Byte) : (s.setEncStream bs).cfg = s.cfg := rfl
@[simp] theorem State.setEncStream_enc (bs : List Byte) : (s.setEncStream bs).enc = s.enc := rfl
@[simp] theorem State.setEncStream_dec (bs : List Byte) : (s.setEncStream bs).dec = s.dec := rfl
@[simp] theorem State.setEncStream_ticks (bs : List Byte) : (s.setEncStream bs).env.ticks = s.env.ticks := rfl
@[simp] theorem State.setEncStream_encStream (bs : List Byte) : (s.setEncStream bs).env.encStream = bs := rfl
@[simp] theorem State.setEncStream_decStream (bs : List Byte) : (s.setEncStream bs).env.decStream = s.env.decStream := rfl
@[simp] theorem State.setEncStream_draws (bs : List Byte) : (s.setEncStream bs).env.draws = s.env.draws := rfl

@[simp] theorem State.setDecStream_cfg (bs : List Byte) : (s.setDecStream bs).cfg = s.cfg := rfl
@[simp] theorem State.setDecStream_enc (bs : List Byte) : (s.setDecStream bs).enc = s.enc := rfl
@[simp] theorem State.setDecStream_dec (bs : List Byte) : (s.setDecStream bs).dec = s.dec := rfl
@[simp] theorem State.setDecStream_ticks (bs : List Byte) : (s.setDecStream bs).env.ticks = s.env.ticks := rfl
@[simp] theorem State.setDecStream_encStream (bs : List Byte) : (s.setDecStream bs).env.encStream = s.env.encStream := rfl
@[simp] theorem State.setDecStream_decStream (bs : List Byte) : (s.setDecStream bs).env.decStream = bs := rfl
@[simp] theorem State.setDecStream_draws (bs : List Byte) : (s.setDecStream bs).env.draws = s.env.draws := rfl

@[simp] theorem State.encPop_cfg : (s.encPop).cfg = s.cfg := rfl
@[simp] theorem State.encPop_enc : (s.encPop).enc = s.enc.dropHead := rfl
@[simp] theorem State.encPop_dec : (s.encPop).dec = s.dec := rfl
@[simp] theorem State.encPop_ticks : (s.encPop).env.ticks = s.env.ticks := rfl
@[simp] theorem State.encPop_encStream : (s.encPop).env.encStream = s.env.encStream ++ s.enc.outq.take 1 := rfl
@[simp] theorem State.encPop_decStream : (s.encPop).env.decStream = s.env.decStream := rfl
@[simp] theorem State.encPop_draws : (s.encPop).env.draws = s.env.draws := rfl

@[simp] theorem State.decPop_cfg : (s.decPop).cfg = s.cfg := rfl
@[simp] theorem State.decPop_enc : (s.decPop).enc = s.enc := rfl
@[simp] theorem State.decPop_dec : (s.decPop).dec = s.dec.dropHead := rfl
@[simp] theorem State.decPop_ticks : (s.decPop).env.ticks = s.env.ticks := rfl
@[simp] theorem State.decPop_encStream : (s.decPop).env.encStream = s.env.encStream := rfl
@[simp] theorem State.decPop_decStream : (s.decPop).env.decStream = s.env.decStream ++ s.dec.outq.take 1 := rfl
@[simp] theorem State.decPop_draws : (s.decPop).env.draws = s.env.draws := rfl

@[simp] theorem State.resetEnc_cfg : (s.resetEnc).cfg = s.cfg := rfl
@[simp] theorem State.resetEnc_enc : (s.resetEnc).enc = EncUnit.reset := rfl
@[simp] theorem State.resetEnc_dec : (s.resetEnc).dec = s.dec := rfl
@[simp] theorem State.resetEnc_ticks : (s.resetEnc).env.ticks = s.env.ticks := rfl
@[simp] theorem State.resetEnc_encStream : (s.resetEnc).env.encStream = [] := rfl
@[simp] theorem State.resetEnc_decStream : (s.resetEnc).env.decStream = s.env.decStream := rfl
@[simp] theorem State.resetEnc_draws : (s.resetEnc).env.draws = s.env.draws := rfl

@[simp] theorem State.resetDec_cfg : (s.resetDec).cfg = s.cfg := rfl
@[simp] theorem State.resetDec_enc : (s.resetDec).enc = s.enc := rfl
@[simp] theorem State.resetDec_dec : (s.resetDec).dec = DecUnit.reset := rfl
@[simp] theorem State.resetDec_ticks : (s.resetDec).env.ticks = s.env.ticks := rfl
@[simp] theorem State.resetDec_encStream : (s.resetDec).env.encStream = s.env.encStream := rfl
@[simp] theorem State.resetDec_decStream : (s.resetDec).env.decStream = [] := rfl
@[simp] theorem State.resetDec_draws : (s.resetDec).env.draws = s.env.draws := rfl

@[simp] theorem State.takeTick_cfg : (s.takeTick).cfg = s.cfg := rfl
@[simp] theorem State.takeTick_enc : (s.takeTick).enc = s.enc := rfl
@[simp] theorem State.takeTick_dec : (s.takeTick).dec = s.dec := rfl
@[simp] theorem State.takeTick_ticks : (s.takeTick).env.ticks = s.env.ticks.tail := rfl
@[simp] theorem State.takeTick_encStream : (s.takeTick).env.encStream = s.env.encStream := rfl
@[simp] theorem State.takeTick_decStream : (s.takeTick).env.decStream = s.env.decStream := rfl
@[simp] theorem State.takeTick_draws : (s.takeTick).env.draws = s.env.draws + 1 := rfl

@[simp] theorem State.pushTick_cfg (t : Tick) : (s.pushTick t).cfg = s.cfg := rfl
@[simp] theorem State.pushTick_enc (t : Tick) : (s.pushTick t).enc = s.enc := rfl
@[simp] theorem State.pushTick_dec (t : Tick) : (s.pushTick t).dec = s.dec := rfl
@[simp] theorem State.pushTick_ticks (t : Tick) : (s.pushTick t).env.ticks = t :: s.env.ticks := rfl
@[simp] theorem State.pushTick_encStream (t : Tick) : (s.pushTick t).env.encStream = s.env.encStream := rfl
@[simp] theorem State.pushTick_decStream (t : Tick) : (s.pushTick t).env.decStream = s.env.decStream := rfl
@[simp] theorem State.pushTick_draws (t : Tick) : (s.pushTick t).env.draws = s.env.draws := rfl

end State

end Sys2Proof.Machine
end

