-- ==== Sys2Proof/Laws/Ops.lean ====
section
/-! SUPPORT. What each shared operation can do, said once: readiness, the presentation of a command, the dispatch, the
edges of a clock and the step. Later proofs cite these and do not unfold the operations. -/

namespace Sys2Proof.Machine

@[simp] theorem andThen_next (s : State) (f : State → Answer) : andThen (.next s) f = f s := rfl
@[simp] theorem andThen_fault (r : Fault) (f : State → Answer) : andThen (.fault r) f = .fault r := rfl
@[simp] theorem andThen_refused (r : Refusal) (f : State → Answer) : andThen (.refused r) f = .refused r := rfl

theorem UnitRegs.accepting_iff {G : Type} {w : Nat} (u : UnitRegs G w) (depth m : Nat) :
    u.accepting depth m = true ↔ u.phase = .run ∧ m ≤ depth - u.outq.length := by
  simp only [UnitRegs.accepting, Bool.and_eq_true, beq_iff_eq, decide_eq_true_eq]
  rfl

theorem UnitRegs.hasByte_iff {G : Type} {w : Nat} (u : UnitRegs G w) : u.hasByte = true ↔ u.outq ≠ [] := by
  simp [UnitRegs.hasByte, List.length_pos_iff]

/-- R62 and R63 for the encoder. -/
theorem State.encReady_iff (s : State) :
    s.encReady = true ↔ s.enc.phase = .run ∧ 3 ≤ s.cfg.encDepth - s.enc.outq.length :=
  s.enc.accepting_iff _ _

/-- R62 and R63 for the decoder. -/
theorem State.decReady_iff (s : State) :
    s.decReady = true ↔ s.dec.phase = .run ∧ 1 ≤ s.cfg.decDepth - s.dec.outq.length :=
  s.dec.accepting_iff _ _

theorem State.encPresent_ready {s : State} (h : s.encReady = true) (f : EncUnit → EncUnit) :
    s.encPresent f = .next (s.setEnc (f s.enc)) := by simp [State.encPresent, h]

theorem State.encPresent_busy {s : State} (h : s.encReady = false) (f : EncUnit → EncUnit) :
    s.encPresent f = .next s := by simp [State.encPresent, h]

theorem State.decPresent_ready {s : State} (h : s.decReady = true) (f : DecUnit → DecUnit) :
    s.decPresent f = .next (s.setDec (f s.dec)) := by simp [State.decPresent, h]

theorem State.decPresent_busy {s : State} (h : s.decReady = false) (f : DecUnit → DecUnit) :
    s.decPresent f = .next s := by simp [State.decPresent, h]

/-! ### The dispatch -/

/-- The effect of an accepted command on the encoder's registers; a decoder command has none. -/
def encEffectOf : Instr → EncUnit → EncUnit
  | .encFeed c => encFeedEffect c
  | .encFinish _ => encFinishEffect
  | .encRsvd00 _ => fun u => u.raiseFault .illegalOp
  | .encRsvd11 _ => fun u => u.raiseFault .illegalOp
  | .decFeed _ => id
  | .decFinish _ => id
  | .decRsvd00 _ => id
  | .decRsvd11 _ => id

/-- The effect of an accepted command on the decoder's registers; an encoder command has none. -/
def decEffectOf : Instr → DecUnit → DecUnit
  | .encFeed _ => id
  | .encFinish _ => id
  | .encRsvd00 _ => id
  | .encRsvd11 _ => id
  | .decFeed b => decFeedEffect b
  | .decFinish _ => fun u => u.endRun .g0
  | .decRsvd00 _ => fun u => u.raiseFault .illegalOp
  | .decRsvd11 _ => fun u => u.raiseFault .illegalOp

/-- Every encoder command is a presentation of its effect to the encoder. -/
theorem exec_of_enc {i : Instr} (h : i.unit = .enc) (s : State) : exec i s = s.encPresent (encEffectOf i) := by
  cases i <;> first | rfl | cases h

/-- Every decoder command is a presentation of its effect to the decoder. -/
theorem exec_of_dec {i : Instr} (h : i.unit = .dec) (s : State) : exec i s = s.decPresent (decEffectOf i) := by
  cases i <;> first | rfl | cases h

/-- What `exec` can do, said once: it answers a next state, which is the state with the effect on the unit that was
ready, or the state itself. -/
theorem exec_cases (i : Instr) (s : State) :
    (i.unit = .enc ∧ s.encReady = true ∧ exec i s = .next (s.setEnc (encEffectOf i s.enc))) ∨
    (i.unit = .dec ∧ s.decReady = true ∧ exec i s = .next (s.setDec (decEffectOf i s.dec))) ∨
    (i.unit = .enc ∧ s.encReady = false ∧ exec i s = .next s) ∨
    (i.unit = .dec ∧ s.decReady = false ∧ exec i s = .next s) := by
  cases hu : i.unit with
  | enc =>
    rw [exec_of_enc hu]
    cases hr : s.encReady with
    | true => exact .inl ⟨rfl, rfl, State.encPresent_ready hr _⟩
    | false => exact .inr (.inr (.inl ⟨rfl, rfl, State.encPresent_busy hr _⟩))
  | dec =>
    rw [exec_of_dec hu]
    cases hr : s.decReady with
    | true => exact .inr (.inl ⟨rfl, rfl, State.decPresent_ready hr _⟩)
    | false => exact .inr (.inr (.inr ⟨rfl, rfl, State.decPresent_busy hr _⟩))

/-! ### Edges and the step -/

/-- What the encoder's registers become at an edge, before the pop: the effect of the command accepted. -/
def encCommanded (p : Pins) (s : State) : State :=
  if p.cmdValid && s.encReady then s.setEnc (encEffectOf (decode .enc p.cmd) s.enc) else s

/-- What the decoder's registers become at an edge, before the pop: the effect of the command accepted. -/
def decCommanded (p : Pins) (s : State) : State :=
  if p.cmdValid && s.decReady then s.setDec (decEffectOf (decode .dec p.cmd) s.dec) else s

@[simp] theorem decode_enc_unit (w : CmdWord) : (decode .enc w).unit = .enc := by
  simp only [decode]; split_ifs <;> rfl

@[simp] theorem decode_dec_unit (w : CmdWord) : (decode .dec w).unit = .dec := by
  simp only [decode]; split_ifs <;> rfl

/-- What an encoder edge does, said once (R66). -/
theorem encEdge_eq (p : Pins) (s : State) :
    encEdge p s = .next (if p.rst then s.resetEnc
      else if s.enc.hasByte && p.outReady then (encCommanded p s).encPop else encCommanded p s) := by
  cases hr : p.rst with
  | true => simp [encEdge, hr]
  | false =>
    have h : (if p.cmdValid then exec (decode .enc p.cmd) s else .next s) = .next (encCommanded p s) := by
      cases hv : p.cmdValid <;> cases he : s.encReady <;>
        simp [encCommanded, hv, he, exec_of_enc, State.encPresent]
    simp only [encEdge, hr, h, andThen_next, State.encPorts]
    simp

/-- What a decoder edge does, said once (R66). -/
theorem decEdge_eq (p : Pins) (s : State) :
    decEdge p s = .next (if p.rst then s.resetDec
      else if s.dec.hasByte && p.outReady then (decCommanded p s).decPop else decCommanded p s) := by
  cases hr : p.rst with
  | true => simp [decEdge, hr]
  | false =>
    have h : (if p.cmdValid then exec (decode .dec p.cmd) s else .next s) = .next (decCommanded p s) := by
      cases hv : p.cmdValid <;> cases he : s.decReady <;>
        simp [decCommanded, hv, he, exec_of_dec, State.decPresent]
    simp only [decEdge, hr, h, andThen_next, State.decPorts]
    simp

/-- The state after the encoder's part of an event. -/
def encTicked (e : Option Pins) (s : State) : State :=
  match e with
  | some p => if p.rst then s.resetEnc
      else if s.enc.hasByte && p.outReady then (encCommanded p s).encPop else encCommanded p s
  | none => s

/-- The state after the decoder's part of an event. -/
def decTicked (e : Option Pins) (s : State) : State :=
  match e with
  | some p => if p.rst then s.resetDec
      else if s.dec.hasByte && p.outReady then (decCommanded p s).decPop else decCommanded p s
  | none => s

theorem encTick_eq (e : Option Pins) (s : State) : encTick e s = .next (encTicked e s) := by
  cases e with
  | none => rfl
  | some p => exact encEdge_eq p s

theorem decTick_eq (e : Option Pins) (s : State) : decTick e s = .next (decTicked e s) := by
  cases e with
  | none => rfl
  | some p => exact decEdge_eq p s

end Sys2Proof.Machine
end

