-- ==== Sys2Proof/Laws/Effects.lean ====
section
/-! SUPPORT. What a command's effect can do to the queue, and what a command does to the state, said once. -/

namespace Sys2Proof.Machine

theorem alpha_encoderChar : ∀ i : Symbol, encoderChar (alpha i) := by decide

theorem padByte_encoderChar : encoderChar padByte := .inl rfl

/-- An encoder command appends at most three bytes to the queue, each an entry of ALPHA or the padding (R63, R86). -/
theorem encEffectOf_emits (i : Instr) (u : EncUnit) :
    ∃ e, (encEffectOf i u).outq = u.outq ++ e ∧ e.length ≤ 3 ∧ ∀ b ∈ e, encoderChar b := by
  cases i with
  | encFeed c =>
    simp only [encEffectOf, encFeedEffect]
    cases u.gstate
    · exact ⟨[_], rfl, by simp, by simp only [List.mem_singleton, forall_eq]; exact alpha_encoderChar _⟩
    · exact ⟨[_], rfl, by simp, by simp only [List.mem_singleton, forall_eq]; exact alpha_encoderChar _⟩
    · refine ⟨[_, _], by simp; exact ⟨rfl, rfl⟩, by simp, ?_⟩
      simp only [List.mem_cons, List.not_mem_nil, or_false, forall_eq_or_imp, forall_eq]
      exact ⟨alpha_encoderChar _, alpha_encoderChar _⟩
  | encFinish _ =>
    simp only [encEffectOf, encFinishEffect, encFinishEmits]
    cases u.gstate
    · exact ⟨[], by simp, by simp, by simp⟩
    · refine ⟨[_, _, _], by simp; exact ⟨rfl, rfl, rfl⟩, by simp, ?_⟩
      simp only [List.mem_cons, List.not_mem_nil, or_false, forall_eq_or_imp, forall_eq]
      exact ⟨alpha_encoderChar _, padByte_encoderChar, padByte_encoderChar⟩
    · refine ⟨[_, _], by simp; exact ⟨rfl, rfl⟩, by simp, ?_⟩
      simp only [List.mem_cons, List.not_mem_nil, or_false, forall_eq_or_imp, forall_eq]
      exact ⟨alpha_encoderChar _, padByte_encoderChar⟩
  | encRsvd00 _ => exact ⟨[], by simp [encEffectOf], by simp, by simp⟩
  | encRsvd11 _ => exact ⟨[], by simp [encEffectOf], by simp, by simp⟩
  | decFeed _ => exact ⟨[], by simp [encEffectOf], by simp, by simp⟩
  | decFinish _ => exact ⟨[], by simp [encEffectOf], by simp, by simp⟩
  | decRsvd00 _ => exact ⟨[], by simp [encEffectOf], by simp, by simp⟩
  | decRsvd11 _ => exact ⟨[], by simp [encEffectOf], by simp, by simp⟩

/-- A decoder command appends at most one byte to the queue (R63). -/
theorem decEffectOf_emits (i : Instr) (u : DecUnit) :
    ∃ e, (decEffectOf i u).outq = u.outq ++ e ∧ e.length ≤ 1 := by
  cases i with
  | decFeed b =>
    simp only [decEffectOf, decFeedEffect]
    cases symbolOf b with
    | none => exact ⟨[], by simp⟩
    | some d =>
      simp only [decSymbolEffect]
      cases u.gstate
      · exact ⟨[], by simp⟩
      all_goals exact ⟨[_], rfl, by simp⟩
  | decFinish _ => exact ⟨[], by simp [decEffectOf]⟩
  | decRsvd00 _ => exact ⟨[], by simp [decEffectOf]⟩
  | decRsvd11 _ => exact ⟨[], by simp [decEffectOf]⟩
  | encFeed _ => exact ⟨[], by simp [decEffectOf]⟩
  | encFinish _ => exact ⟨[], by simp [decEffectOf]⟩
  | encRsvd00 _ => exact ⟨[], by simp [decEffectOf]⟩
  | encRsvd11 _ => exact ⟨[], by simp [decEffectOf]⟩

/-- A command that is not accepted leaves the state as it was; an accepted one has its effect on its own unit. This is
`exec_cases` read from an answer. -/
theorem exec_next_cases {i : Instr} {s t : State} (h : exec i s = .next t) :
    (i.unit = .enc ∧ s.encReady = true ∧ t = s.setEnc (encEffectOf i s.enc)) ∨
    (i.unit = .dec ∧ s.decReady = true ∧ t = s.setDec (decEffectOf i s.dec)) ∨ t = s := by
  rcases exec_cases i s with ⟨hu, hr, he⟩ | ⟨hu, hr, he⟩ | ⟨hu, hr, he⟩ | ⟨hu, hr, he⟩ <;> rw [he] at h <;> cases h
  · exact .inl ⟨hu, hr, rfl⟩
  · exact .inr (.inl ⟨hu, hr, rfl⟩)
  · exact .inr (.inr rfl)
  · exact .inr (.inr rfl)

/-- An accepted emission fits the queue: an encoder that is ready has room for the largest emit (R46, R62, R63). -/
theorem encEffectOf_queue {i : Instr} {s : State} (h : s.encReady = true) :
    (encEffectOf i s.enc).outq.length ≤ s.cfg.encDepth := by
  obtain ⟨e, ho, hl, _⟩ := encEffectOf_emits i s.enc
  have := (s.encReady_iff.1 h).2
  rw [ho, List.length_append]
  omega

/-- An accepted emission fits the queue: a decoder that is ready has room for the largest emit (R46, R62, R63). -/
theorem decEffectOf_queue {i : Instr} {s : State} (h : s.decReady = true) :
    (decEffectOf i s.dec).outq.length ≤ s.cfg.decDepth := by
  obtain ⟨e, ho, hl⟩ := decEffectOf_emits i s.dec
  have := (s.decReady_iff.1 h).2
  rw [ho, List.length_append]
  omega

end Sys2Proof.Machine
end

