-- ==== Sys2Proof/Laws/PerInstr.lean ====
section
/-! SUPPORT. Statements about every command, one lemma per constructor of Instr. -/

namespace Sys2Proof.Laws.TableRow

/-- The word of a command matches the command's row of spec/opcode_table.json on the port of its unit, and the row's
fixed bits are its operation code. -/
def Statement (i : Instr) : Prop :=
  i.row.hits i.unit (encode i) = true ∧ cmdOp i.row.value = i.op ∧ i.row ∈ opcodeRows

theorem encFeed : ∀ data : Byte, Statement (.encFeed data) := by unfold Statement; decide

theorem encFinish : ∀ data : Byte, Statement (.encFinish data) := by unfold Statement; decide

theorem encRsvd00 : ∀ data : Byte, Statement (.encRsvd00 data) := by unfold Statement; decide

theorem encRsvd11 : ∀ data : Byte, Statement (.encRsvd11 data) := by unfold Statement; decide

theorem decFeed : ∀ data : Byte, Statement (.decFeed data) := by unfold Statement; decide

theorem decFinish : ∀ data : Byte, Statement (.decFinish data) := by unfold Statement; decide

theorem decRsvd00 : ∀ data : Byte, Statement (.decRsvd00 data) := by unfold Statement; decide

theorem decRsvd11 : ∀ data : Byte, Statement (.decRsvd11 data) := by unfold Statement; decide

end Sys2Proof.Laws.TableRow
end

