-- ==== Sys2Proof/Laws/Rom.lean ====
section
/-! SUPPORT. The small lemmas of the two ROMs (20_memory.md R38 to R43) that later proofs cite instead of unfolding them. -/

namespace Sys2Proof.Machine

theorem alphaTable_length : alphaTable.length = 64 := by decide

/-- Every read of ALPHA is an entry of the table. -/
theorem alpha_mem : ∀ i : Symbol, alpha i ∈ alphaTable := by decide

/-- No entry of ALPHA is the padding byte (R39). -/
theorem alpha_ne_pad : ∀ i : Symbol, alpha i ≠ padByte := by decide

/-- The decoder reads back the index the encoder looked up (R43). -/
theorem symbolOf_alpha : ∀ i : Symbol, symbolOf (alpha i) = some i := by decide

/-- The padding byte is ignored (R42, R99). -/
theorem symbolOf_pad : symbolOf padByte = none := by decide

/-- The ignored bytes are those outside the alphabet (R42, R90). -/
theorem symbolOf_none_iff : ∀ b : Byte, symbolOf b = none ↔ b ∉ alphaTable := by decide

end Sys2Proof.Machine
end

