-- ==== Sys2Proof/Laws/Step.lean ====
section
/-! SUPPORT. What a step can do to each unit, said once, in terms of the pins the unit sees. -/

namespace Sys2Proof.Machine

/-- A step is the encoder's part and then the decoder's part of the next event, or nothing where none is left. -/
theorem step_eq (s : State) : step s = .next (decTicked s.decPins (encTicked s.encPins s.takeTick)) := by
  cases h : s.env.ticks with
  | nil => simp [step, clockStep, h, State.encPins, State.decPins, encTicked, decTicked]
  | cons e rest =>
    simp [step, clockStep, h, State.encPins, State.decPins, encTick_eq, decTick_eq]

section Parts

variable (e : Option Pins) (s : State)

@[simp] theorem encCommanded_frame (p : Pins) :
    (encCommanded p s).cfg = s.cfg ∧ (encCommanded p s).dec = s.dec ∧ (encCommanded p s).env = s.env := by
  unfold encCommanded; split_ifs <;> simp

@[simp] theorem decCommanded_frame (p : Pins) :
    (decCommanded p s).cfg = s.cfg ∧ (decCommanded p s).enc = s.enc ∧ (decCommanded p s).env = s.env := by
  unfold decCommanded; split_ifs <;> simp

/-- The encoder's part of an event changes the encoder and its record alone (R56). -/
theorem encTicked_frame : (encTicked e s).cfg = s.cfg ∧ (encTicked e s).dec = s.dec ∧
    (encTicked e s).env.ticks = s.env.ticks ∧ (encTicked e s).env.decStream = s.env.decStream ∧
    (encTicked e s).env.draws = s.env.draws := by
  cases e with
  | none => simp [encTicked]
  | some p => simp only [encTicked]; split_ifs <;> simp

/-- The decoder's part of an event changes the decoder and its record alone (R56). -/
theorem decTicked_frame : (decTicked e s).cfg = s.cfg ∧ (decTicked e s).enc = s.enc ∧
    (decTicked e s).env.ticks = s.env.ticks ∧ (decTicked e s).env.encStream = s.env.encStream ∧
    (decTicked e s).env.draws = s.env.draws := by
  cases e with
  | none => simp [decTicked]
  | some p => simp only [decTicked]; split_ifs <;> simp

/-- The encoder's part of an event reads the encoder, its queue depth and its record alone (R56). -/
theorem encTicked_reads {s s' : State} (hd : s.cfg.encDepth = s'.cfg.encDepth) (hu : s.enc = s'.enc)
    (hs : s.env.encStream = s'.env.encStream) :
    (encTicked e s).enc = (encTicked e s').enc ∧ (encTicked e s).env.encStream = (encTicked e s').env.encStream := by
  cases e with
  | none => exact ⟨hu, hs⟩
  | some p =>
    have hr : s.encReady = s'.encReady := by simp [State.encReady, hd, hu]
    simp only [encTicked, encCommanded, hr, hu]
    split_ifs <;> simp [hu, hs]

/-- The decoder's part of an event reads the decoder, its queue depth and its record alone (R56). -/
theorem decTicked_reads {s s' : State} (hd : s.cfg.decDepth = s'.cfg.decDepth) (hu : s.dec = s'.dec)
    (hs : s.env.decStream = s'.env.decStream) :
    (decTicked e s).dec = (decTicked e s').dec ∧ (decTicked e s).env.decStream = (decTicked e s').env.decStream := by
  cases e with
  | none => exact ⟨hu, hs⟩
  | some p =>
    have hr : s.decReady = s'.decReady := by simp [State.decReady, hd, hu]
    simp only [decTicked, decCommanded, hr, hu]
    split_ifs <;> simp [hu, hs]

end Parts

/-- What a step does to each unit and its record: the unit's own part of the event, on the state as it was. -/
theorem step_units {s t : State} (h : step s = .next t) :
    t.cfg = s.cfg ∧ t.env.ticks = s.env.ticks.tail ∧ t.env.draws = s.env.draws + 1 ∧
    t.enc = (encTicked s.encPins s).enc ∧ t.env.encStream = (encTicked s.encPins s).env.encStream ∧
    t.dec = (decTicked s.decPins s).dec ∧ t.env.decStream = (decTicked s.decPins s).env.decStream := by
  rw [step_eq] at h
  cases h
  have he := encTicked_frame s.encPins s.takeTick
  have hd := decTicked_frame s.decPins (encTicked s.encPins s.takeTick)
  have hre := encTicked_reads s.encPins (s := s.takeTick) (s' := s) rfl rfl rfl
  have hrd := decTicked_reads s.decPins (s := encTicked s.encPins s.takeTick) (s' := s)
    (by rw [he.1]; rfl) (by rw [he.2.1]; rfl) (by rw [he.2.2.2.1]; rfl)
  refine ⟨?_, ?_, ?_, ?_, ?_, hrd.1, hrd.2⟩
  · rw [hd.1, he.1]; rfl
  · rw [hd.2.2.1, he.2.2.1]; rfl
  · rw [hd.2.2.2.2, he.2.2.2.2]; rfl
  · rw [hd.2.1, hre.1]
  · rw [hd.2.2.2.1, hre.2]

/-! ### One unit's part of a step, from its answer -/

/-- What a step can do to the encoder, said once: an edge with `rst = 1` resets it; otherwise its registers become
those of the command accepted, if any, and then at most one byte, already valid before the edge, leaves the queue. -/
theorem step_enc_cases {s t : State} (h : step s = .next t) :
    (resets s.encPins = true ∧ t.enc = EncUnit.reset ∧ t.env.encStream = []) ∨
    (resets s.encPins = false ∧ ∃ u : EncUnit,
      (match s.encAccepts with
        | some i => s.encReady = true ∧ i.unit = .enc ∧ u = encEffectOf i s.enc
        | none => u = s.enc) ∧
      (t.enc = u ∧ t.env.encStream = s.env.encStream ∨
        s.enc.outq ≠ [] ∧ t.enc = u.dropHead ∧ t.env.encStream = s.env.encStream ++ u.outq.take 1)) := by
  obtain ⟨_, _, _, h4, h5, _⟩ := step_units h
  rw [h4, h5]
  cases hp : s.encPins with
  | none => exact .inr ⟨rfl, s.enc, by simp [State.encAccepts, hp, accepts], .inl ⟨rfl, rfl⟩⟩
  | some p =>
    cases hr : p.rst with
    | true => exact .inl (by simp [resets, encTicked, hr])
    | false =>
      refine .inr ⟨by simp [resets, hr], (encCommanded p s).enc, ?_, ?_⟩
      · unfold encCommanded State.encAccepts accepts
        simp only [hp, hr]
        cases p.cmdValid <;> cases s.encReady <;> simp
      · simp only [encTicked, hr, Bool.false_eq_true, if_false]
        split_ifs with hh
        · simp only [Bool.and_eq_true, UnitRegs.hasByte_iff] at hh
          exact .inr (by simp [hh.1])
        · exact .inl (by simp)

/-- What a step can do to the decoder, said once. -/
theorem step_dec_cases {s t : State} (h : step s = .next t) :
    (resets s.decPins = true ∧ t.dec = DecUnit.reset ∧ t.env.decStream = []) ∨
    (resets s.decPins = false ∧ ∃ u : DecUnit,
      (match s.decAccepts with
        | some i => s.decReady = true ∧ i.unit = .dec ∧ u = decEffectOf i s.dec
        | none => u = s.dec) ∧
      (t.dec = u ∧ t.env.decStream = s.env.decStream ∨
        s.dec.outq ≠ [] ∧ t.dec = u.dropHead ∧ t.env.decStream = s.env.decStream ++ u.outq.take 1)) := by
  obtain ⟨_, _, _, _, _, h6, h7⟩ := step_units h
  rw [h6, h7]
  cases hp : s.decPins with
  | none => exact .inr ⟨rfl, s.dec, by simp [State.decAccepts, hp, accepts], .inl ⟨rfl, rfl⟩⟩
  | some p =>
    cases hr : p.rst with
    | true => exact .inl (by simp [resets, decTicked, hr])
    | false =>
      refine .inr ⟨by simp [resets, hr], (decCommanded p s).dec, ?_, ?_⟩
      · unfold decCommanded State.decAccepts accepts
        simp only [hp, hr]
        cases p.cmdValid <;> cases s.decReady <;> simp
      · simp only [decTicked, hr, Bool.false_eq_true, if_false]
        split_ifs with hh
        · simp only [Bool.and_eq_true, UnitRegs.hasByte_iff] at hh
          exact .inr (by simp [hh.1])
        · exact .inl (by simp)

/-- Popping moves a byte from the queue to the host's record and leaves the output of the run as it is (R48). -/
theorem pop_output (stream q : List Byte) : (stream ++ q.take 1) ++ q.tail = stream ++ q := by
  cases q <;> simp

/-! ### Runs of several steps -/

/-- One more step, at the front. -/
theorem steps_succ (k : Nat) (s : State) : steps (k + 1) s = andThen (step s) (steps k) := by
  have h := Host.Core.run.eq_2 core s k
  have hs : core.step s = .next (decTicked s.decPins (encTicked s.encPins s.takeTick)) := step_eq s
  rw [hs] at h
  rw [step_eq]
  exact h

@[simp] theorem steps_zero (s : State) : steps 0 s = .next s := rfl

/-- A run of `k + 1` steps that answers a state has a first step. -/
theorem steps_succ_next {k : Nat} {s t : State} (h : steps (k + 1) s = .next t) :
    ∃ u, step s = .next u ∧ steps k u = .next t := by
  rw [steps_succ, step_eq, andThen_next] at h
  exact ⟨_, step_eq s, h⟩

/-- The encoder's history along one more step, at the front. -/
theorem encHistory_succ {k : Nat} {h : RunHistory} {s u : State} (hs : step s = .next u) :
    encHistory (k + 1) h s = encHistory k (h.after (resets s.encPins) s.encAccepts) u := by
  rw [encHistory, hs]

/-- The decoder's history along one more step, at the front. -/
theorem decHistory_succ {k : Nat} {h : RunHistory} {s u : State} (hs : step s = .next u) :
    decHistory (k + 1) h s = decHistory k (h.after (resets s.decPins) s.decAccepts) u := by
  rw [decHistory, hs]

/-- The induction over a run, packaged once: a relation between the encoder's history and the state that every step
keeps holds after any number of steps. -/
theorem encHistory_invariant (P : RunHistory → State → Prop)
    (keep : ∀ h s t, P h s → step s = .next t → P (h.after (resets s.encPins) s.encAccepts) t) :
    ∀ (k : Nat) (h : RunHistory) (s t : State), P h s → steps k s = .next t → P (encHistory k h s) t := by
  intro k
  induction k with
  | zero => intro h s t hp hs; cases hs; exact hp
  | succ k ih =>
    intro h s t hp hs
    obtain ⟨u, h1, h2⟩ := steps_succ_next hs
    rw [encHistory_succ h1]
    exact ih _ _ _ (keep _ _ _ hp h1) h2

/-- The induction over a run, packaged once, for the decoder. -/
theorem decHistory_invariant (P : RunHistory → State → Prop)
    (keep : ∀ h s t, P h s → step s = .next t → P (h.after (resets s.decPins) s.decAccepts) t) :
    ∀ (k : Nat) (h : RunHistory) (s t : State), P h s → steps k s = .next t → P (decHistory k h s) t := by
  intro k
  induction k with
  | zero => intro h s t hp hs; cases hs; exact hp
  | succ k ih =>
    intro h s t hp hs
    obtain ⟨u, h1, h2⟩ := steps_succ_next hs
    rw [decHistory_succ h1]
    exact ih _ _ _ (keep _ _ _ hp h1) h2

/-- An invariant that every step keeps holds after any number of steps. -/
theorem steps_invariant (P : State → Prop) (keep : ∀ s t, P s → step s = .next t → P t) :
    ∀ (k : Nat) (s t : State), P s → steps k s = .next t → P t := by
  intro k
  induction k with
  | zero => intro s t hp hs; cases hs; exact hp
  | succ k ih =>
    intro s t hp hs
    obtain ⟨u, h1, h2⟩ := steps_succ_next hs
    exact ih _ _ (keep _ _ hp h1) h2

end Sys2Proof.Machine
end

