-- ==== Sys2Proof/Tests/Slice0.lean ====
section
/-! SUPPORT. The writer's own tests. Expected values are those of spec/95_test_vectors.md (the vector is named), or of the
rule named; none is the model's own answer. Then, for every statement of Certificates/Slice0/Obligations.lean that has hypotheses,
a concrete state and operands that meet them (`witness_<its name>`). -/

namespace Sys2Proof.Tests

open Sys2Proof Sys2Proof.Machine Sys2Proof.Reference

/-! ### Small states -/

/-- The machine after reset with an encoder in RUN that holds these values. -/
def encAt (g : EncGroup) (n : Symbol) (q : List Byte) : State :=
  { State.reset with enc := ⟨g, n, .run, .noError, q⟩ }

/-- The machine after reset with a decoder in RUN that holds these values. -/
def decAt (g : DecGroup) (n : Byte) (q : List Byte) : State :=
  { State.reset with dec := ⟨g, n, .run, .noError, q⟩ }

/-- The same state with these clock events to come. -/
def coming (s : State) (ts : List Tick) : State := { s with env := { s.env with ticks := ts } }

/-- The encoder after a command. -/
def encAfter (i : Instr) (s : State) : Option EncUnit := (answered (exec i s)).map State.enc

/-- The decoder after a command. -/
def decAfter (i : Instr) (s : State) : Option DecUnit := (answered (exec i s)).map State.dec

/-! ### WellFormed: what each check refuses -/

/-- R61: a command of one unit is refused on the other unit's port. -/
theorem test_wellFormed_refuses_other_port :
    (Instr.encFeed 0x66#8).wellFormedOn .dec = false ∧ (Instr.decFinish 0#8).wellFormedOn .enc = false := by decide

/-- R70: the reserved operations are refused as illegal. -/
theorem test_legal_refuses_reserved :
    (Instr.encRsvd00 0#8).legal = false ∧ (Instr.encRsvd11 0xFF#8).legal = false ∧
    (Instr.decRsvd00 0#8).legal = false ∧ (Instr.decRsvd11 0x41#8).legal = false ∧
    (Instr.encFeed 0xFF#8).legal = true ∧ (Instr.decFinish 0xFF#8).legal = true := by decide

/-- R6: an encoder queue of 2 entries and a decoder queue of none are refused; the smallest legal depths are not. -/
theorem test_config_refuses_shallow_queues :
    ¬ Config.Wf ⟨2, 4⟩ ∧ ¬ Config.Wf ⟨3, 0⟩ ∧ Config.Wf ⟨3, 1⟩ ∧ Config.Wf Config.reference := by decide

/-! ### Decode: words written out bit by bit from R58 and R59 -/

/-- V2: `enc.feed 'f'` is 01 0110 0110. -/
theorem test_decode_encFeed : decode .enc 0b0101100110#10 = .encFeed 0x66#8 := by decide

/-- R73: `enc.finish` is 10 0000 0000; R71: any DATA. -/
theorem test_decode_encFinish :
    decode .enc 0b1000000000#10 = .encFinish 0x00#8 ∧ decode .enc 0b1010100101#10 = .encFinish 0xA5#8 := by decide

/-- V23: the word 0x0FF. -/
theorem test_decode_encRsvd00 : decode .enc 0b0011111111#10 = .encRsvd00 0xFF#8 := by decide

/-- V23: the word 0x300. -/
theorem test_decode_encRsvd11 : decode .enc 0b1100000000#10 = .encRsvd11 0x00#8 := by decide

/-- V6: `dec.feed 'Z'` is 01 0101 1010. -/
theorem test_decode_decFeed : decode .dec 0b0101011010#10 = .decFeed 0x5A#8 := by decide

/-- V23: the word 0x2FF. -/
theorem test_decode_decFinish : decode .dec 0b1011111111#10 = .decFinish 0xFF#8 := by decide

/-- V23: the word 0x000. -/
theorem test_decode_decRsvd00 : decode .dec 0b0000000000#10 = .decRsvd00 0x00#8 := by decide

/-- V23: the word 0x341. -/
theorem test_decode_decRsvd11 : decode .dec 0b1101000001#10 = .decRsvd11 0x41#8 := by decide

/-- Log entry 1: bit 10 of a number selects the port, and a number with a higher bit is rejected by name. -/
theorem test_decodeNumber :
    decodeTableWord 16 0x166 = some (.encFeed 0x66#8) ∧ decodeTableWord 16 0x55A = some (.decFeed 0x5A#8) ∧
    decodeTableWord 16 0x800 = none ∧ portWord 0x800 = .error .widerThanPortAndWord := by decide

/-! ### The ROMs and the bit fields -/

/-- V18: entries of INV at the ends of each range and just outside. -/
theorem test_inverse_rom :
    [0x41#8, 0x5A#8, 0x61#8, 0x7A#8, 0x30#8, 0x39#8, 0x2B#8, 0x2F#8].map inv =
      [0x00#7, 0x19#7, 0x1A#7, 0x33#7, 0x34#7, 0x3D#7, 0x3E#7, 0x3F#7] ∧
    [0x3D#8, 0x00#8, 0x0A#8, 0x2C#8, 0x2E#8, 0x3A#8, 0x40#8, 0x5B#8, 0x60#8, 0x7B#8, 0x80#8, 0xFF#8].map inv =
      List.replicate 12 0x40#7 := by decide

/-- V17 and V11: the streams `TWFu`, `TWE=`, `TQ==` for `Man`, `Ma`, `M`. -/
theorem test_reference_base64 :
    base64 [0x4D#8, 0x61#8, 0x6E#8] = [0x54#8, 0x57#8, 0x46#8, 0x75#8] ∧
    base64 [0x4D#8, 0x61#8] = [0x54#8, 0x57#8, 0x45#8, 0x3D#8] ∧
    base64 [0x4D#8] = [0x54#8, 0x51#8, 0x3D#8, 0x3D#8] := by decide

/-- V21: `"QQ==QQ=="` gives 41 04 10 and `"+/8="` gives FB FF. -/
theorem test_reference_symbolBytes :
    symbolBytes (symbolsOf [0x51#8, 0x51#8, 0x3D#8, 0x3D#8, 0x51#8, 0x51#8, 0x3D#8, 0x3D#8]) = [0x41#8, 0x04#8, 0x10#8] ∧
    symbolBytes (symbolsOf [0x2B#8, 0x2F#8, 0x38#8, 0x3D#8]) = [0xFB#8, 0xFF#8] := by decide

/-! ### One command -/

/-- V15: 0x66 in state 0, 0x3F in state 1 with NEXT 48. -/
theorem test_encFeed_state0_state1 :
    encAfter (.encFeed 0x66#8) (encAt .g0 0#6 []) = some ⟨.g1, 32#6, .run, .noError, [0x5A#8]⟩ ∧
    encAfter (.encFeed 0x3F#8) (encAt .g1 48#6 []) = some ⟨.g2, 60#6, .run, .noError, [0x7A#8]⟩ := by decide

/-- V15: 0x80 and 0x66 in state 2 with NEXT 60: two bytes in this order, NEXT not written. -/
theorem test_encFeed_state2 :
    encAfter (.encFeed 0x80#8) (encAt .g2 60#6 []) = some ⟨.g0, 60#6, .run, .noError, [0x2B#8, 0x41#8]⟩ ∧
    encAfter (.encFeed 0x66#8) (encAt .g2 60#6 [0x5A#8]) =
      some ⟨.g0, 60#6, .run, .noError, [0x5A#8, 0x39#8, 0x6D#8]⟩ := by decide

/-- V16: state 0 with a stale NEXT, state 1 with NEXT 32, state 2 with NEXT 4. -/
theorem test_encFinish_states :
    encAfter (.encFinish 0#8) (encAt .g0 60#6 []) = some ⟨.g0, 0#6, .done, .noError, []⟩ ∧
    encAfter (.encFinish 0#8) (encAt .g1 32#6 []) = some ⟨.g0, 0#6, .done, .noError, [0x67#8, 0x3D#8, 0x3D#8]⟩ ∧
    encAfter (.encFinish 0#8) (encAt .g2 4#6 []) = some ⟨.g0, 0#6, .done, .noError, [0x45#8, 0x3D#8]⟩ := by decide

/-- V25: with two bytes queued FINISH is not accepted (2 free < 3). -/
theorem test_encFinish_held :
    encAfter (.encFinish 0#8) (encAt .g2 60#6 [0x5A#8, 0x6D#8]) =
      some ⟨.g2, 60#6, .run, .noError, [0x5A#8, 0x6D#8]⟩ := by decide

/-- V23: 0x0FF after `f`; the status word reads 0x56. -/
theorem test_encRsvd00 :
    encAfter (.encRsvd00 0xFF#8) (encAt .g1 32#6 []) = some ⟨.g1, 32#6, .fault, .illegalOp, []⟩ ∧
    (answered (exec (.encRsvd00 0xFF#8) (encAt .g1 32#6 []))).map State.encStatus = some 0x56#8 := by decide

/-- V23: 0x3FF after `fo`; the status word reads 0x5A. -/
theorem test_encRsvd11 :
    encAfter (.encRsvd11 0xFF#8) (encAt .g2 60#6 []) = some ⟨.g2, 60#6, .fault, .illegalOp, []⟩ ∧
    (answered (exec (.encRsvd11 0xFF#8) (encAt .g2 60#6 []))).map State.encStatus = some 0x5A#8 := by decide

/-- V19: `m` in state 0 with a stale NEXT, in state 1, 2 and 3. -/
theorem test_decFeed_symbol :
    decAfter (.decFeed 0x6D#8) (decAt .g0 0xC0#8 []) = some ⟨.g1, 0x98#8, .run, .noError, []⟩ ∧
    decAfter (.decFeed 0x6D#8) (decAt .g1 0x64#8 []) = some ⟨.g2, 0x60#8, .run, .noError, [0x66#8]⟩ ∧
    decAfter (.decFeed 0x6D#8) (decAt .g2 0xF0#8 []) = some ⟨.g3, 0x80#8, .run, .noError, [0xF9#8]⟩ ∧
    decAfter (.decFeed 0x6D#8) (decAt .g3 0x40#8 []) = some ⟨.g0, 0x40#8, .run, .noError, [0x66#8]⟩ := by decide

/-- V20: ignored bytes change nothing, in any state. -/
theorem test_decFeed_ignored :
    decAfter (.decFeed 0x0A#8) (decAt .g1 0x64#8 []) = some ⟨.g1, 0x64#8, .run, .noError, []⟩ ∧
    decAfter (.decFeed 0x3D#8) (decAt .g3 0x40#8 []) = some ⟨.g3, 0x40#8, .run, .noError, []⟩ := by decide

/-- V22: states 0 and 3. -/
theorem test_decFinish :
    decAfter (.decFinish 0xFF#8) (decAt .g0 0xC0#8 []) = some ⟨.g0, 0#8, .done, .noError, []⟩ ∧
    decAfter (.decFinish 0#8) (decAt .g3 0x40#8 []) = some ⟨.g0, 0#8, .done, .noError, []⟩ := by decide

/-- V23: 0x000 after reset; the status word reads 0x52. -/
theorem test_decRsvd00 :
    (answered (exec (.decRsvd00 0#8) (decAt .g0 0#8 []))).map State.decStatus = some 0x52#8 := by decide

/-- V23: 0x341 after `Zm9`; the status word reads 0x5E. -/
theorem test_decRsvd11 :
    (answered (exec (.decRsvd11 0x41#8) (decAt .g3 64#8 []))).map State.decStatus = some 0x5E#8 := by decide

/-! ### One clock event -/

/-- V25: pop and `enc.feed 'o'` in one cycle with 3 entries free: accepted, `Z` delivered, `m` queued. -/
theorem test_edge_feed_with_pop :
    (answered (step (coming (encAt .g1 32#6 [0x5A#8]) [⟨some ⟨false, true, 0x16F#10, true⟩, none⟩]))).map
      (fun t => (t.enc, t.env.encStream)) = some (⟨.g2, 60#6, .run, .noError, [0x6D#8]⟩, [0x5A#8]) := by decide

/-- V25: pop and `enc.finish` in one cycle with 2 entries free: not accepted, though the pop frees an entry. -/
theorem test_edge_finish_held_with_pop :
    (answered (step (coming (encAt .g2 60#6 [0x5A#8, 0x6D#8]) [⟨some ⟨false, true, 0x200#10, true⟩, none⟩]))).map
      (fun t => (t.enc, t.env.encStream)) = some (⟨.g2, 60#6, .run, .noError, [0x6D#8]⟩, [0x5A#8]) := by decide

/-- V25: with four bytes queued the decoder accepts nothing, not even an ignored byte. -/
theorem test_decoder_full_not_ready :
    ((decAt .g2 0x60#8 [0x66#8, 0x6F#8, 0x6F#8, 0x62#8]).decPorts false).cmdReady = false ∧
    ((decAt .g2 0x60#8 [0x66#8, 0x6F#8, 0x6F#8]).decPorts false).cmdReady = true := by decide

/-- V26: a reset edge with a command and a pop presented: both discarded, both queued bytes lost, status 0x10. -/
theorem test_edge_reset_wins :
    (answered (step (coming (encAt .g2 60#6 [0x5A#8, 0x6D#8]) [⟨some ⟨true, true, 0x166#10, true⟩, none⟩]))).map
      (fun t => (t.enc, t.env.encStream, t.encStatus)) = some (EncUnit.reset, [], 0x10#8) := by decide

/-- V24: the status words of the encoder after `enc.feed 'f'`, and of the decoder in state 3, with and without a byte
queued. -/
theorem test_status_words :
    State.reset.encStatus = 0x10#8 ∧ (encAt .g1 32#6 [0x5A#8]).encStatus = 0x04#8 ∧
    (encAt .g1 32#6 []).encStatus = 0x14#8 ∧ (decAt .g3 0x40#8 [0x61#8]).decStatus = 0x0C#8 ∧
    (decAt .g3 0x40#8 []).decStatus = 0x1C#8 := by decide

/-- V24, R65 and R15: the status ports of the same states, with `rst = 1` and `rst = 0`, and the encoder's in state 2
(PHASE 00, GSTATE 10, QEMPTY 1). -/
theorem test_status_ports :
    ((encAt .g1 32#6 [0x5A#8]).encPorts true).status = 0x04#8 ∧
    ((decAt .g3 0x40#8 []).decPorts true).status = 0x1C#8 ∧
    ((encAt .g2 60#6 []).encPorts false).status = 0b00011000#8 := by decide

/-- `withFetchWord` presents a table word so that the next step runs it (log entries 1 and 12): `enc.feed 'f'`
(V2) and, with bit 10 set, `dec.feed 'Z'` (V6). -/
theorem test_withFetchWord :
    (answered (step (State.reset.withFetchWord 16 0x166))).map State.enc =
      some ⟨.g1, 32#6, .run, .noError, [0x5A#8]⟩ ∧
    (answered (step (State.reset.withFetchWord 16 0x55A))).map State.dec =
      some ⟨.g1, 100#8, .run, .noError, []⟩ := by decide

/-! ### Text (R73, R74) -/

/-- R73: a character literal, a hexadecimal byte, a word too wide for `raw`, and a comment line. -/
theorem test_parseLine :
    parseLine "enc.feed 'f'".toList = some (.feed .enc 0x66#8) ∧
    parseLine "dec.raw 0x341 ; comment".toList = some (.raw .dec 0x341#10) ∧
    parseLine "enc.raw 0x400".toList = none ∧ parseLine "; comment".toList = some .blank := by decide

/-- The model's choices of log entries 13, 18 and 19: a tab or several blanks between mnemonic and operand but not
none, a decimal word, and a backslash that begins no escape. -/
theorem test_parseLine_choices :
    parseLine "enc.feed\t 0x66".toList = some (.feed .enc 0x66#8) ∧ parseLine "enc.feed0x66".toList = none ∧
    parseLine "enc.raw 512".toList = some (.raw .enc 0x200#10) ∧
    parseLine "enc.feeds \"a\\q\"".toList = none := by decide

/-- R74: `feeds` with escapes is one FEED word for each byte. -/
theorem test_feeds_words :
    (parseLine "dec.feeds \"Q\\n\"".toList).map AsmLine.words = some [0x151#10, 0x10A#10] := by decide

/-! ### Witnesses of the hypotheses -/

/-- An edge at which the host presents nothing and takes nothing. -/
def idlePins : Pins := ⟨false, false, 0, false⟩

/-- The decoder full at the reference depth. -/
def decFull : State := decAt .g2 0x60#8 [0x66#8, 0x6F#8, 0x6F#8, 0x62#8]

/-- The encoder in DONE with one byte queued, and the decoder in FAULT with one. -/
def ended : State :=
  { State.reset with enc := ⟨.g0, 0#6, .done, .noError, [0x3D#8]⟩, dec := ⟨.g3, 0x40#8, .fault, .illegalOp, [0x61#8]⟩ }

/-- V2's run: `enc.feed 'f'`, then `enc.finish` with a pop, then three pops. -/
def runF : State :=
  coming State.reset ([presentTick .enc 0x166#10, ⟨some ⟨false, true, 0x200#10, true⟩, none⟩]
    ++ List.replicate 3 (tickOf .enc popPins))

/-- A run that ends in a fault: `enc.feed 'f'`, then 0x300 with a pop. -/
def runFault : State :=
  coming State.reset [presentTick .enc 0x166#10, ⟨some ⟨false, true, 0x300#10, true⟩, none⟩]

/-- A decoder run fed what the encoder's run put out, `Zg==`, with pops. -/
def runZg : State :=
  coming State.reset ([presentTick .dec 0x15A#10, presentTick .dec 0x167#10]
    ++ List.replicate 2 ⟨none, some ⟨false, true, 0x13D#10, true⟩⟩)

theorem witness_DecodeEncodeRoundTrip :
    (Instr.encFeed 0x66#8).wellFormedOn .enc = true ∧ (Instr.decRsvd11 0#8).wellFormedOn .dec = true := by decide

theorem witness_FinishDataIgnoredFeedAlwaysLegal : (0x3D#8 : Byte) ∉ alphaTable := by decide

theorem witness_InverseRomFormat : invIgn (inv 0x3D#8) = true ∧ invIgn (inv 0x2F#8) = false := by decide

theorem witness_InverseRomLaw : alpha 63#6 = alpha 63#6 ∧ (0x3D#8 : Byte) ∉ alphaTable := by decide

/-- Exactly 3 entries free, at the reference depth. -/
theorem witness_EncFeedFirstByte :
    (encAt .g0 0#6 [0x5A#8]).enc.phase = .run ∧
    (encAt .g0 0#6 [0x5A#8]).cfg.encDepth - (encAt .g0 0#6 [0x5A#8]).enc.outq.length = 3 ∧
    (encAt .g0 0#6 [0x5A#8]).enc.gstate = .g0 := by decide

theorem witness_EncFeedSecondByte :
    (encAt .g1 32#6 [0x5A#8]).enc.phase = .run ∧
    3 ≤ (encAt .g1 32#6 [0x5A#8]).cfg.encDepth - (encAt .g1 32#6 [0x5A#8]).enc.outq.length ∧
    (encAt .g1 32#6 [0x5A#8]).enc.gstate = .g1 ∧ (48#6 : Symbol).extractLsb' 0 4 = 0#4 := by decide

theorem witness_EncFeedThirdByte :
    (encAt .g2 60#6 [0x6D#8]).enc.phase = .run ∧
    3 ≤ (encAt .g2 60#6 [0x6D#8]).cfg.encDepth - (encAt .g2 60#6 [0x6D#8]).enc.outq.length ∧
    (encAt .g2 60#6 [0x6D#8]).enc.gstate = .g2 ∧ (60#6 : Symbol).extractLsb' 0 2 = 0#2 := by decide

theorem witness_EncFinishCompleteGroup :
    (encAt .g0 60#6 [0x76#8]).enc.phase = .run ∧
    3 ≤ (encAt .g0 60#6 [0x76#8]).cfg.encDepth - (encAt .g0 60#6 [0x76#8]).enc.outq.length ∧
    (encAt .g0 60#6 [0x76#8]).enc.gstate = .g0 := by decide

theorem witness_EncFinishOneLeftoverByte :
    ((encAt .g1 32#6 [0x5A#8]).enc.phase = .run ∧
      3 ≤ (encAt .g1 32#6 [0x5A#8]).cfg.encDepth - (encAt .g1 32#6 [0x5A#8]).enc.outq.length ∧
      (encAt .g1 32#6 [0x5A#8]).enc.gstate = .g1) ∧
    (48#6 : Symbol).extractLsb' 0 4 = 0#4 ∧
    (answered (exec (.encFinish 0#8) (encAt .g1 32#6 [0x5A#8]))).isSome = true := by decide

theorem witness_EncFinishTwoLeftoverBytes :
    ((encAt .g2 60#6 [0x6D#8]).enc.phase = .run ∧
      3 ≤ (encAt .g2 60#6 [0x6D#8]).cfg.encDepth - (encAt .g2 60#6 [0x6D#8]).enc.outq.length ∧
      (encAt .g2 60#6 [0x6D#8]).enc.gstate = .g2) ∧ (60#6 : Symbol).extractLsb' 0 2 = 0#2 := by decide

theorem witness_Classification :
    symbolOf 0x3D#8 = none ∧ invIgn (inv 0x41#8) = false ∧ ((0x20#8 : Byte).toNat ≤ 0x20) ∧
    0x80 ≤ (0x80#8 : Byte).toNat := by decide

theorem witness_DecFeedIgnoredByte : symbolOf 0xFF#8 = none := by decide

/-- Exactly one entry free. -/
theorem witness_DecFeedFirstSymbol :
    symbolOf 0x2F#8 = some 63#6 ∧ (decAt .g0 0xC0#8 [1#8, 2#8, 3#8]).dec.phase = .run ∧
    (decAt .g0 0xC0#8 [1#8, 2#8, 3#8]).cfg.decDepth - (decAt .g0 0xC0#8 [1#8, 2#8, 3#8]).dec.outq.length = 1 ∧
    (decAt .g0 0xC0#8 [1#8, 2#8, 3#8]).dec.gstate = .g0 := by decide

theorem witness_DecFeedSecondSymbol :
    symbolOf 0x6D#8 = some 38#6 ∧ (decAt .g1 0x64#8 [1#8, 2#8, 3#8]).dec.phase = .run ∧
    1 ≤ (decAt .g1 0x64#8 [1#8, 2#8, 3#8]).cfg.decDepth - (decAt .g1 0x64#8 [1#8, 2#8, 3#8]).dec.outq.length ∧
    (decAt .g1 0x64#8 [1#8, 2#8, 3#8]).dec.gstate = .g1 ∧ (0xFC#8 : Byte).extractLsb' 0 2 = 0#2 := by decide

theorem witness_DecFeedThirdSymbol :
    symbolOf 0x39#8 = some 61#6 ∧ (decAt .g2 0x60#8 [1#8, 2#8, 3#8]).dec.phase = .run ∧
    1 ≤ (decAt .g2 0x60#8 [1#8, 2#8, 3#8]).cfg.decDepth - (decAt .g2 0x60#8 [1#8, 2#8, 3#8]).dec.outq.length ∧
    (decAt .g2 0x60#8 [1#8, 2#8, 3#8]).dec.gstate = .g2 ∧ (0xF0#8 : Byte).extractLsb' 0 4 = 0#4 := by decide

theorem witness_DecFeedFourthSymbol :
    symbolOf 0x76#8 = some 47#6 ∧ (decAt .g3 0x40#8 [1#8, 2#8, 3#8]).dec.phase = .run ∧
    1 ≤ (decAt .g3 0x40#8 [1#8, 2#8, 3#8]).cfg.decDepth - (decAt .g3 0x40#8 [1#8, 2#8, 3#8]).dec.outq.length ∧
    (decAt .g3 0x40#8 [1#8, 2#8, 3#8]).dec.gstate = .g3 ∧ (0xC0#8 : Byte).extractLsb' 0 6 = 0#6 := by decide

theorem witness_DecFinishDiscardsPartialGroup :
    (decAt .g3 0x40#8 [1#8, 2#8, 3#8]).dec.phase = .run ∧
    1 ≤ (decAt .g3 0x40#8 [1#8, 2#8, 3#8]).cfg.decDepth - (decAt .g3 0x40#8 [1#8, 2#8, 3#8]).dec.outq.length := by decide

theorem witness_ReservedOpsRaiseIllegalOp :
    cmdOp 0x0FF#10 = 0b00#2 ∧ cmdOp 0x341#10 = 0b11#2 ∧
    (encAt .g1 32#6 [0x5A#8]).enc.phase = .run ∧
    3 ≤ (encAt .g1 32#6 [0x5A#8]).cfg.encDepth - (encAt .g1 32#6 [0x5A#8]).enc.outq.length ∧
    (decAt .g3 0x40#8 [1#8, 2#8, 3#8]).dec.phase = .run ∧
    1 ≤ (decAt .g3 0x40#8 [1#8, 2#8, 3#8]).cfg.decDepth - (decAt .g3 0x40#8 [1#8, 2#8, 3#8]).dec.outq.length := by decide

/-- The hypotheses of the two clauses are those of `witness_ReservedOpsRaiseIllegalOp`; here at the smallest legal
depths, with both queues empty. -/
theorem witness_ReservedCommandsComplete :
    (Config.mk 3 1).Wf ∧ State.reset.enc.phase = .run ∧ 3 ≤ 3 - State.reset.enc.outq.length ∧
    State.reset.dec.phase = .run ∧ 1 ≤ 1 - State.reset.dec.outq.length := by decide

/-- Each command answers a next state in a state where it is accepted. -/
theorem witness_CommandFrames :
    (answered (exec (.encFeed 0xFF#8) (encAt .g2 60#6 []))).isSome = true ∧
    (answered (exec (.encFinish 0#8) (encAt .g1 32#6 []))).isSome = true ∧
    (answered (exec (.encRsvd00 0#8) (encAt .g1 32#6 []))).isSome = true ∧
    (answered (exec (.encRsvd11 0#8) (encAt .g1 32#6 []))).isSome = true ∧
    (answered (exec (.decFeed 0x2F#8) (decAt .g3 0x40#8 []))).isSome = true ∧
    (answered (exec (.decFinish 0#8) (decAt .g3 0x40#8 []))).isSome = true ∧
    (answered (exec (.decRsvd00 0#8) (decAt .g3 0x40#8 []))).isSome = true ∧
    (answered (exec (.decRsvd11 0#8) (decAt .g3 0x40#8 []))).isSome = true := by decide

/-- Not ready because of the phase, and because of the queue with one entry too few. -/
theorem witness_UnacceptedCommandHasNoEffect :
    (ended.encPorts false).cmdReady = false ∧ (ended.decPorts false).cmdReady = false ∧
    ((encAt .g2 60#6 [0x5A#8, 0x6D#8]).encPorts false).cmdReady = false ∧
    (decFull.decPorts false).cmdReady = false := by decide

theorem witness_MaxEmitIsLargestEmit :
    (((encAt .g1 32#6 [0x5A#8]).encPorts false).cmdReady = true ∧ (encAt .g1 32#6 [0x5A#8]).enc.gstate = .g1 ∧
      (answered (exec (.encFinish 0#8) (encAt .g1 32#6 [0x5A#8]))).isSome = true) ∧
    (((decAt .g3 0x40#8 [1#8, 2#8, 3#8]).decPorts false).cmdReady = true ∧
      (decAt .g3 0x40#8 [1#8, 2#8, 3#8]).dec.gstate ≠ .g0 ∧ symbolOf 0x76#8 ≠ none ∧
      (answered (exec (.decFeed 0x76#8) (decAt .g3 0x40#8 [1#8, 2#8, 3#8]))).isSome = true) := by decide

theorem witness_OutputPortShowsHead :
    (ended.encPorts false).outValid = true ∧ (ended.decPorts false).outValid = true ∧
    (ended.encPorts true).outValid = false ∧ (ended.decPorts true).outValid = false ∧
    (State.reset.encPorts false).outValid = false ∧ (State.reset.decPorts false).outValid = false := by decide

theorem witness_StatusUnusedCodesNeverRead : ended.Inv ∧ State.reset.Inv :=
  ⟨⟨by decide, by decide, by decide⟩, ⟨by decide, by decide, by decide⟩⟩

theorem witness_StepRunsDecodedCommand :
    (runF.env.ticks.head? = some ⟨some ⟨false, true, 0x166#10, false⟩, none⟩) ∧
    (runZg.env.ticks.head? = some ⟨none, some ⟨false, true, 0x15A#10, false⟩⟩) := by decide

/-- A clock edge of each kind: command with pop and `rst = 0`, and `rst = 1`. -/
theorem witness_ClockEdge :
    ((coming State.reset [⟨some ⟨false, true, 0x200#10, true⟩, none⟩]).env.ticks =
      ⟨some ⟨false, true, 0x200#10, true⟩, none⟩ :: []) ∧
    ((coming State.reset [⟨some resetPins, none⟩]).env.ticks = ⟨some resetPins, none⟩ :: []) ∧
    ((coming State.reset [⟨none, some ⟨false, true, 0x13D#10, true⟩⟩]).env.ticks =
      ⟨none, some ⟨false, true, 0x13D#10, true⟩⟩ :: []) ∧
    ((coming State.reset [⟨none, some resetPins⟩]).env.ticks = ⟨none, some resetPins⟩ :: []) ∧
    resetPins.rst = true := by decide

theorem witness_SimultaneousEdgesCommute :
    (coming State.reset [⟨some popPins, some resetPins⟩]).env.ticks = ⟨some popPins, some resetPins⟩ :: [] := by decide

/-- A step exists, and each kind of action is enabled somewhere. -/
theorem witness_TransactionLevelEquivalence :
    (answered (step runF)).isSome = true ∧ ((Action.reset .enc).effect ended).isSome = true ∧
    ((Action.reset .dec).effect ended).isSome = true ∧ ((Action.pop .enc).effect ended).isSome = true ∧
    ((Action.pop .dec).effect ended).isSome = true ∧ ((Action.accept .enc 0x300#10).effect State.reset).isSome = true ∧
    ((Action.accept .dec 0x13D#10).effect State.reset).isSome = true := by decide

theorem witness_SpaceCountedBeforePop :
    (encAt .g2 60#6 [0x5A#8, 0x6D#8]).encReady = false ∧ decFull.decReady = false ∧ popPins.rst = false ∧
    popPins.outReady = true := by decide

theorem witness_ResetEdge : resetPins.rst = true := by decide

theorem witness_ResetWinsThenReady :
    resetPins.rst = true ∧ (⟨true, true, 0x166#10, true⟩ : Pins).rst = true ∧ ended.cfg.Wf ∧
    (answered (encEdge resetPins ended)).isSome = true ∧ (answered (decEdge resetPins ended)).isSome = true := by decide

theorem witness_StepKeepsInvariant :
    (coming ended [⟨some popPins, some resetPins⟩]).Inv ∧
    (answered (step (coming ended [⟨some popPins, some resetPins⟩]))).isSome = true ∧
    (coming (encAt .g1 32#6 [0x5A#8]) [presentTick .enc 0x200#10]).Inv :=
  ⟨⟨by decide, by decide, by decide⟩, by decide, by decide, by decide, by decide⟩

/-- Steps into DONE and FAULT of each unit, and a step from a phase other than RUN with a reset edge and without. -/
theorem witness_PhaseTransitions :
    (answered (step (State.reset.withFetchWord 16 0x200))).map (fun t => t.enc.phase) = some .done ∧
    (answered (step (State.reset.withFetchWord 16 0x300))).map (fun t => t.enc.phase) = some .fault ∧
    (answered (step (State.reset.withFetchWord 16 0x600))).map (fun t => t.dec.phase) = some .done ∧
    (answered (step (State.reset.withFetchWord 16 0x400))).map (fun t => t.dec.phase) = some .fault ∧
    ended.enc.phase ≠ .run ∧ ended.dec.phase ≠ .run ∧
    (answered (step (coming ended [⟨some resetPins, some popPins⟩]))).isSome = true := by decide

theorem witness_EncoderAlphabetClosure :
    (answered (exec (.encFinish 0#8) (encAt .g1 32#6 []))).map (fun t => t.enc.outq) =
      some [0x67#8, 0x3D#8, 0x3D#8] := by decide

theorem witness_StepKeepsAlphabetClosure :
    (∀ b ∈ (coming (encAt .g1 32#6 [0x5A#8]) [presentTick .enc 0x200#10]).encOutput, encoderChar b) ∧
    (answered (step (coming (encAt .g1 32#6 [0x5A#8]) [presentTick .enc 0x200#10]))).isSome = true := by decide

/-- Idle edges of each unit beside commands of the other, with a queue that is not popped and with one that is
empty. -/
theorem witness_IdleUnitHoldsState :
    (∀ e ∈ (coming ended [⟨some idlePins, some ⟨false, true, 0x15A#10, false⟩⟩]).env.ticks, ∀ p, e.enc = some p →
      p.rst = false ∧ p.cmdValid = false ∧ (p.outReady = false ∨ ended.enc.outq = [])) ∧
    (∀ e ∈ (coming State.reset [⟨some ⟨false, true, 0x166#10, false⟩, some popPins⟩]).env.ticks, ∀ p, e.dec = some p →
      p.rst = false ∧ p.cmdValid = false ∧ (p.outReady = false ∨ State.reset.dec.outq = [])) ∧
    (answered (steps 2 (coming ended [⟨some idlePins, some ⟨false, true, 0x15A#10, false⟩⟩]))).isSome = true ∧
    (answered (steps 2 (coming State.reset [⟨some ⟨false, true, 0x166#10, false⟩, some popPins⟩]))).isSome = true := by
  refine ⟨?_, ?_, by decide, by decide⟩
  · intro e he p hp
    simp only [coming, List.mem_singleton] at he
    subst he
    cases hp
    decide
  · intro e he p hp
    simp only [coming, List.mem_singleton] at he
    subst he
    cases hp
    decide

/-- Commands presented and bytes popped in DONE and in FAULT. -/
theorem witness_OutputSurvivesEndOfRun :
    ended.enc.phase ≠ .run ∧ ended.dec.phase ≠ .run ∧
    (∀ e ∈ (coming ended [⟨some ⟨false, true, 0x166#10, true⟩, some ⟨false, true, 0x200#10, true⟩⟩]).env.ticks,
      (∀ p, e.enc = some p → p.rst = false) ∧ (∀ p, e.dec = some p → p.rst = false)) ∧
    (answered (steps 1 (coming ended [⟨some ⟨false, true, 0x166#10, true⟩, some ⟨false, true, 0x200#10, true⟩⟩]))).isSome
      = true := by
  refine ⟨by decide, by decide, ?_, by decide⟩
  intro e he
  simp only [coming, List.mem_singleton] at he
  subst he
  exact ⟨fun p hp => by cases hp; rfl, fun p hp => by cases hp; rfl⟩

/-- A queue of exactly as many bytes as there are pops, for each unit; the units not in RUN and in RUN. -/
theorem witness_DrainDeliversQueue :
    (coming ended (List.replicate 1 (tickOf .enc popPins))).env.ticks = List.replicate 1 (tickOf .enc popPins) ∧
    ended.enc.outq.length ≤ 1 ∧
    (coming decFull (List.replicate 4 (tickOf .dec popPins))).env.ticks = List.replicate 4 (tickOf .dec popPins) ∧
    decFull.dec.outq.length ≤ 4 ∧ decFull.cfg.Wf ∧ decFull.dec.phase = .run ∧
    (encAt .g1 32#6 [0x5A#8]).enc.phase = .run := by decide

/-- Two machines with the same encoder and different decoders, and the other way round. -/
theorem witness_UnitsAreIndependent :
    (coming decFull [⟨some idlePins, some popPins⟩]).enc = (coming State.reset [⟨some idlePins, none⟩]).enc ∧
    (coming decFull [⟨some idlePins, some popPins⟩]).env.ticks.map Tick.enc =
      (coming State.reset [⟨some idlePins, none⟩]).env.ticks.map Tick.enc ∧
    (answered (steps 1 (coming decFull [⟨some idlePins, some popPins⟩]))).isSome = true ∧
    (coming ended [⟨some popPins, some idlePins⟩]).dec = (coming { ended with enc := EncUnit.reset } [⟨none, some idlePins⟩]).dec ∧
    (coming ended [⟨some popPins, some idlePins⟩]).env.ticks.map Tick.dec =
      (coming { ended with enc := EncUnit.reset } [⟨none, some idlePins⟩]).env.ticks.map Tick.dec ∧
    (answered (steps 1 (coming ended [⟨some popPins, some idlePins⟩]))).isSome = true := by decide

theorem witness_StaleAccumulatorUnobservable :
    (encAt .g0 60#6 []).enc.gstate = .g0 ∧ (decAt .g0 0xC0#8 []).dec.gstate = .g0 ∧
    (answered (steps 1 (coming (encAt .g0 60#6 []) [presentTick .enc 0x166#10]))).isSome = true ∧
    (answered (steps 1 (coming (decAt .g0 0xC0#8 []) [presentTick .dec 0x15A#10]))).isSome = true := by decide

/-- V2's run begins at a reset, has fed `f`, has ended cleanly and put out `Zg==`. -/
theorem witness_EncoderRunIsBase64 :
    runF.EncRunStart ∧ (encHistory 5 .start runF).fed = [0x66#8] ∧
    (answered (steps 5 runF)).map (fun t => (t.enc.phase, t.encOutput)) =
      some (.done, [0x5A#8, 0x67#8, 0x3D#8, 0x3D#8]) := by decide

/-- A decoder run on `Zg==` puts out `f` (V21). -/
theorem witness_DecoderRunIsInverse :
    runZg.DecRunStart ∧ (decHistory 4 .start runZg).fed = [0x5A#8, 0x67#8, 0x3D#8, 0x3D#8] ∧
    (answered (steps 4 runZg)).map State.decOutput = some [0x66#8] := by decide

/-- A clean end of V2's run, and an end in a fault of both units. -/
theorem witness_EndOfRunDeliversWholeOutput :
    runF.EncRunStart ∧ (answered (steps 5 runF)).map (fun t => decide t.enc.EndedCleanly) = some true ∧
    runFault.EncRunStart ∧ (answered (steps 2 runFault)).map (fun t => decide t.enc.EndedInFault) = some true ∧
    (State.reset.withFetchWord 16 0x600).DecRunStart ∧
    (answered (steps 1 (State.reset.withFetchWord 16 0x600))).map (fun t => decide t.dec.EndedCleanly) = some true ∧
    (answered (steps 1 (State.reset.withFetchWord 16 0x400))).map (fun t => decide t.dec.EndedInFault) = some true := by
  decide

/-- Before FINISH and after it. -/
theorem witness_EncoderLengthAndPadding :
    runF.EncRunStart ∧ (answered (steps 1 runF)).map (fun t => t.enc.phase) = some .run ∧
    (answered (steps 2 runF)).map (fun t => t.enc.phase) = some .done := by decide

/-- After two symbols, before FINISH. -/
theorem witness_DecoderByteCount :
    runZg.DecRunStart ∧ (answered (steps 2 runZg)).map (fun t => t.dec.phase) = some .run := by decide

/-- `Zg` and `Zg==` have the same symbols. -/
theorem witness_DecoderLeniency :
    runZg.DecRunStart ∧ (answered (steps 2 runZg)).isSome = true ∧
    (answered (steps 4 runZg)).map (fun t => t.dec.phase) = some .run ∧
    (decHistory 2 .start runZg).fed ≠ (decHistory 4 .start runZg).fed ∧
    symbolsOf (decHistory 2 .start runZg).fed = symbolsOf (decHistory 4 .start runZg).fed := by decide

/-- V2's run and the decoder run on exactly what it put out. -/
theorem witness_RoundTrip :
    runF.EncRunStart ∧ (answered (steps 5 runF)).map (fun t => decide t.enc.EndedCleanly) = some true ∧
    runZg.DecRunStart ∧ (answered (steps 4 runZg)).isSome = true ∧
    (answered (steps 5 runF)).map (fun t => t.env.encStream) = some (decHistory 4 .start runZg).fed := by decide

theorem witness_EncoderThroughput :
    runF.EncRunStart ∧ (answered (steps 5 runF)).isSome = true := by decide

end Sys2Proof.Tests
end

section
/-! SUPPORT. The fields of the status word of R27, once for both units, and the statement about them. -/

namespace Sys2Proof.Machine

section StatusFields

variable {G : Type} {w : Nat} (u : UnitRegs G w) (gbits : G → BitVec 2)

/-- Bits 1:0 of the status word (R27). -/
theorem UnitRegs.status_phase : (u.status gbits).extractLsb' 0 2 = u.phase.bits :=
  BitVec.extractLsb'_append_eq_right

/-- Bits 3:2 of the status word (R27): the two bits of PHASE lie below. -/
theorem UnitRegs.status_gstate : (u.status gbits).extractLsb' 2 2 = gbits u.gstate :=
  (BitVec.extractLsb'_append_eq_of_le (by decide)).trans BitVec.extractLsb'_append_eq_right

/-- Bits 7:6 of the status word (R27): PHASE, GSTATE and QEMPTY lie below, then END. -/
theorem UnitRegs.status_errc : (u.status gbits).extractLsb' 6 2 = u.errc.bits :=
  calc (u.status gbits).extractLsb' 6 2
    _ = (u.errc.bits ++ BitVec.ofBool u.endFlag ++ BitVec.ofBool u.qempty ++ gbits u.gstate).extractLsb' 4 2 :=
      BitVec.extractLsb'_append_eq_of_le (by decide)
    _ = (u.errc.bits ++ BitVec.ofBool u.endFlag ++ BitVec.ofBool u.qempty).extractLsb' 2 2 :=
      BitVec.extractLsb'_append_eq_of_le (by decide)
    _ = (u.errc.bits ++ BitVec.ofBool u.endFlag).extractLsb' 1 2 :=
      BitVec.extractLsb'_append_eq_of_le (by decide)
    _ = u.errc.bits := BitVec.extractLsb'_append_eq_left

/-- Bit 4 of the status word (R27): the lowest bit above PHASE and GSTATE. -/
theorem UnitRegs.status_qempty : (u.status gbits).getLsbD 4 = u.qempty :=
  calc (u.status gbits).getLsbD 4
    _ = (u.errc.bits ++ BitVec.ofBool u.endFlag ++ BitVec.ofBool u.qempty ++ gbits u.gstate).getLsbD 2 :=
      BitVec.getLsbD_append
    _ = (u.errc.bits ++ BitVec.ofBool u.endFlag ++ BitVec.ofBool u.qempty).getLsbD 0 := BitVec.getLsbD_append
    _ = (BitVec.ofBool u.qempty).getLsbD 0 := BitVec.getLsbD_append
    _ = u.qempty := by simp

/-- Bit 5 of the status word (R27): the lowest bit above PHASE, GSTATE and QEMPTY. -/
theorem UnitRegs.status_endFlag : (u.status gbits).getLsbD 5 = u.endFlag :=
  calc (u.status gbits).getLsbD 5
    _ = (u.errc.bits ++ BitVec.ofBool u.endFlag ++ BitVec.ofBool u.qempty ++ gbits u.gstate).getLsbD 3 :=
      BitVec.getLsbD_append
    _ = (u.errc.bits ++ BitVec.ofBool u.endFlag ++ BitVec.ofBool u.qempty).getLsbD 1 := BitVec.getLsbD_append
    _ = (u.errc.bits ++ BitVec.ofBool u.endFlag).getLsbD 0 := BitVec.getLsbD_append
    _ = (BitVec.ofBool u.endFlag).getLsbD 0 := BitVec.getLsbD_append
    _ = u.endFlag := by simp

theorem UnitRegs.qempty_iff : u.qempty = true ↔ u.outq.length = 0 := by
  simp only [UnitRegs.qempty, decide_eq_true_iff]

theorem UnitRegs.endFlag_iff : u.endFlag = true ↔ u.phase = .done ∧ u.outq.length = 0 := by
  simp only [UnitRegs.endFlag, Bool.and_eq_true, beq_iff_eq, UnitRegs.qempty_iff]

/-- R27 for one unit, whatever the 2-bit values of its group states are. -/
theorem UnitRegs.status_fields :
    (u.status gbits).extractLsb' 0 2 = u.phase.bits ∧ (u.status gbits).extractLsb' 2 2 = gbits u.gstate ∧
    ((u.status gbits).getLsbD 4 = true ↔ u.outq.length = 0) ∧
    ((u.status gbits).getLsbD 5 = true ↔ u.phase = .done ∧ u.outq.length = 0) ∧
    (u.status gbits).extractLsb' 6 2 = u.errc.bits :=
  ⟨u.status_phase gbits, u.status_gstate gbits, by rw [u.status_qempty, u.qempty_iff],
    by rw [u.status_endFlag, u.endFlag_iff], u.status_errc gbits⟩

end StatusFields

/-- Settles O29: the fields of both units' words are those of `UnitRegs.status_fields`; the status ports do not read
`rst` (R65), and the codes are the tables of `bits`. -/
theorem statusWordFields : Obligations.StatusWordFields := by
  unfold Obligations.StatusWordFields
  refine ⟨fun s => ⟨s.enc.status_fields EncGroup.bits, s.dec.status_fields DecGroup.bits,
    fun _ => ⟨rfl, rfl⟩⟩, ?phase, ?errc, ?encGroup, ?decGroup⟩
  case phase => exact ⟨rfl, rfl, rfl⟩
  case errc => exact ⟨rfl, rfl⟩
  case encGroup => exact ⟨rfl, rfl, rfl⟩
  case decGroup => exact ⟨rfl, rfl, rfl, rfl⟩

end Sys2Proof.Machine
end

section
/-! SUPPORT. The fields of an entry of INV, what INV and ALPHA say of each other, and the statement about the format. -/

namespace Sys2Proof.Machine

@[simp] theorem invIgn_invEntry (ign : Bool) (val : Symbol) : invIgn (invEntry ign val) = ign :=
  calc (BitVec.ofBool ign ++ val).getLsbD 6
    _ = (BitVec.ofBool ign).getLsbD 0 := BitVec.getLsbD_append
    _ = ign := by simp

@[simp] theorem invVal_invEntry (ign : Bool) (val : Symbol) : invVal (invEntry ign val) = val :=
  BitVec.extractLsb'_append_eq_right

/-- An entry is nothing but its two fields (R41): bits 5:0 come from `VAL`, and bit 6 is the one bit above them. -/
theorem invEntry_invIgn_invVal (e : InvEntry) : invEntry (invIgn e) (invVal e) = e := by
  refine BitVec.eq_of_getLsbD_eq fun i hi => ?_
  rw [invEntry, BitVec.getLsbD_append]
  split_ifs with hval
  · simp [invVal, hval]
  · obtain rfl : i = 6 := by omega
    simp [invIgn]

/-- The rows of INV (R42): all but the last give a symbol, the last ignores the byte with `VAL = 0`. -/
theorem inv_cases (b : Byte) : (∃ val, inv b = invEntry false val) ∨ inv b = invEntry true 0#6 := by
  unfold inv
  split_ifs
  · exact .inl ⟨_, rfl⟩
  · exact .inl ⟨_, rfl⟩
  · exact .inl ⟨_, rfl⟩
  · exact .inl ⟨_, rfl⟩
  · exact .inl ⟨_, rfl⟩
  · exact .inr rfl

/-- Every entry of the table is read by some index (R37). -/
theorem exists_alpha_eq_of_mem {b : Byte} (h : b ∈ alphaTable) : ∃ i : Symbol, alpha i = b := by
  obtain ⟨n, hn, rfl⟩ := List.getElem_of_mem h
  have hlt : n < 2 ^ 6 := hn.trans_eq alphaTable_length
  refine ⟨BitVec.ofNat 6 n, ?_⟩
  rw [alpha, BitVec.toNat_ofNat, Nat.mod_eq_of_lt hlt, List.getD_eq_getElem _ _ hn]

/-- The symbol of a byte is its index in ALPHA, and no other byte has it (R41, R43). -/
theorem symbolOf_eq_some_iff (b : Byte) (d : Symbol) : symbolOf b = some d ↔ alpha d = b := by
  constructor
  · intro hsym
    have hmem : b ∈ alphaTable := by
      by_contra hnot
      simp [(symbolOf_none_iff b).mpr hnot] at hsym
    obtain ⟨i, rfl⟩ := exists_alpha_eq_of_mem hmem
    have hi : i = d := Option.some.inj ((symbolOf_alpha i).symm.trans hsym)
    rw [hi]
  · rintro rfl
    exact symbolOf_alpha d

theorem symbolOf_eq_some_of_not_ign {b : Byte} (h : invIgn (inv b) = false) : symbolOf b = some (invVal (inv b)) := by
  simp [symbolOf, h]

/-- An ignored byte reads `VAL = 0` (R41): only the last row of R42 sets `IGN`. -/
theorem invVal_eq_zero_of_ign {b : Byte} (h : invIgn (inv b) = true) : invVal (inv b) = 0#6 := by
  obtain ⟨val, hrow⟩ | hrow := inv_cases b
  · simp [hrow] at h
  · rw [hrow, invVal_invEntry]

/-- Settles O7: the format holds of every entry whatever INV is, `VAL = 0` is the last row's, and the index is that of
`symbolOf_eq_some_iff`. -/
theorem inverseRomFormat : Obligations.InverseRomFormat := by
  unfold Obligations.InverseRomFormat
  refine fun b => ⟨?format, invVal_eq_zero_of_ign, ?index⟩
  case format => exact (invEntry_invIgn_invVal (inv b)).symm
  case index => exact fun hign => (symbolOf_eq_some_iff b _).mp (symbolOf_eq_some_of_not_ign hign)

end Sys2Proof.Machine
end

section
/-! SUPPORT. The handshake of 30_encoding.md section 3: what a command presented to a ready and to a busy unit does, and
the statements about unaccepted commands and about the bytes one command emits. -/

namespace Sys2Proof.Machine

/-- With `rst = 0` the port `cmd_ready` shows the encoder's readiness (R62). -/
@[simp] theorem State.encPorts_cmdReady (s : State) : (s.encPorts false).cmdReady = s.encReady := rfl

/-- With `rst = 0` the port `cmd_ready` shows the decoder's readiness (R62). -/
@[simp] theorem State.decPorts_cmdReady (s : State) : (s.decPorts false).cmdReady = s.decReady := rfl

section Presented

variable {i : Instr} {s : State}

theorem exec_of_enc_ready (hu : i.unit = .enc) (hr : s.encReady = true) :
    exec i s = .next (s.setEnc (encEffectOf i s.enc)) :=
  (exec_of_enc hu s).trans (State.encPresent_ready hr _)

theorem exec_of_enc_busy (hu : i.unit = .enc) (hr : s.encReady = false) : exec i s = .next s :=
  (exec_of_enc hu s).trans (State.encPresent_busy hr _)

theorem exec_of_dec_ready (hu : i.unit = .dec) (hr : s.decReady = true) :
    exec i s = .next (s.setDec (decEffectOf i s.dec)) :=
  (exec_of_dec hu s).trans (State.decPresent_ready hr _)

theorem exec_of_dec_busy (hu : i.unit = .dec) (hr : s.decReady = false) : exec i s = .next s :=
  (exec_of_dec hu s).trans (State.decPresent_busy hr _)

end Presented

/-- Settles O26: `cmd_ready` is the test that `exec` makes, and its other branch answers the state itself. -/
theorem unacceptedCommandHasNoEffect : Obligations.UnacceptedCommandHasNoEffect := by
  unfold Obligations.UnacceptedCommandHasNoEffect
  intro i s
  rw [s.encPorts_cmdReady, s.decPorts_cmdReady]
  exact ⟨exec_of_enc_busy, exec_of_dec_busy⟩

/-- R82: FINISH in group state 1 emits a character and two padding bytes. -/
theorem encFinishEffect_outq_of_g1 {u : EncUnit} (hg : u.gstate = .g1) :
    (encFinishEffect u).outq = u.outq ++ [alpha u.next, padByte, padByte] := by
  simp [encFinishEffect, encFinishEmits, hg]

/-- R94 to R96: a symbol in any group state but 0 emits one byte. -/
theorem decSymbolEffect_outq_of_ne_g0 (d : Symbol) {u : DecUnit} (hg : u.gstate ≠ .g0) :
    ∃ v, (decSymbolEffect d u).outq = u.outq ++ [v] := by
  unfold decSymbolEffect
  cases hs : u.gstate with
  | g0 => exact absurd hs hg
  | g1 => exact ⟨_, rfl⟩
  | g2 => exact ⟨_, rfl⟩
  | g3 => exact ⟨_, rfl⟩

theorem decFeedEffect_of_symbol {b : Byte} {d : Symbol} (hd : symbolOf b = some d) (u : DecUnit) :
    decFeedEffect b u = decSymbolEffect d u := by simp [decFeedEffect, hd]

theorem decFeedEffect_of_ignored {b : Byte} (hb : symbolOf b = none) (u : DecUnit) : decFeedEffect b u = u := by
  simp [decFeedEffect, hb]

theorem encEffectOf_length_le (i : Instr) (u : EncUnit) :
    (encEffectOf i u).outq.length ≤ u.outq.length + encMaxEmit := by
  obtain ⟨e, happend, hlen, _⟩ := encEffectOf_emits i u
  rw [happend, List.length_append]
  exact Nat.add_le_add_left hlen _

theorem decEffectOf_length_le (i : Instr) (u : DecUnit) :
    (decEffectOf i u).outq.length ≤ u.outq.length + decMaxEmit := by
  obtain ⟨e, happend, hlen⟩ := decEffectOf_emits i u
  rw [happend, List.length_append]
  exact Nat.add_le_add_left hlen _

/-- R63's bound: a command lengthens its own unit's queue by at most `MAXEMIT`, and the other unit's not at all. -/
theorem exec_length_le {i : Instr} {s t : State} (h : exec i s = .next t) :
    t.enc.outq.length ≤ s.enc.outq.length + encMaxEmit ∧ t.dec.outq.length ≤ s.dec.outq.length + decMaxEmit := by
  obtain ⟨-, -, rfl⟩ | ⟨-, -, rfl⟩ | rfl := exec_next_cases h
  · exact ⟨encEffectOf_length_le i s.enc, Nat.le_add_right _ _⟩
  · exact ⟨Nat.le_add_right _ _, decEffectOf_length_le i s.dec⟩
  · exact ⟨Nat.le_add_right _ _, Nat.le_add_right _ _⟩

/-- Settles O27: the bound is that of `exec_length_le`; FINISH in state 1 emits the three bytes of R82, and a symbol
outside state 0 the one byte of R94 to R96. -/
theorem maxEmitIsLargestEmit : Obligations.MaxEmitIsLargestEmit := by
  unfold Obligations.MaxEmitIsLargestEmit
  refine ⟨⟨rfl, rfl⟩, fun _ _ _ => exec_length_le, ?finish, ?feed⟩
  case finish =>
    intro c s t hready hg h
    rw [s.encPorts_cmdReady] at hready
    obtain rfl := Host.Outcome.next.inj ((exec_of_enc_ready rfl hready).symm.trans h)
    change (encFinishEffect s.enc).outq.length = _
    rw [encFinishEffect_outq_of_g1 hg, List.length_append]
    rfl
  case feed =>
    intro b s t hready hg hsym h
    rw [s.decPorts_cmdReady] at hready
    obtain rfl := Host.Outcome.next.inj ((exec_of_dec_ready rfl hready).symm.trans h)
    obtain ⟨d, hd⟩ := Option.ne_none_iff_exists'.mp hsym
    obtain ⟨v, hv⟩ := decSymbolEffect_outq_of_ne_g0 d hg
    change (decFeedEffect b s.dec).outq.length = _
    rw [decFeedEffect_of_symbol hd, hv, List.length_append]
    rfl

end Sys2Proof.Machine
end

section
/-! SUPPORT. The fields of a written word, the commands that the FINISH and FEED words decode to, and the statement
about their `DATA` (30_encoding.md R58, R71). -/

namespace Sys2Proof

@[simp] theorem cmdOp_cmdWord (op : BitVec 2) (data : Byte) : cmdOp (cmdWord op data) = op :=
  BitVec.extractLsb'_append_eq_left

@[simp] theorem cmdData_cmdWord (op : BitVec 2) (data : Byte) : cmdData (cmdWord op data) = data :=
  BitVec.extractLsb'_append_eq_right

theorem decode_enc_feedWord (data : Byte) : decode .enc (cmdWord 0b01#2 data) = .encFeed data := by simp [decode]

theorem decode_dec_feedWord (data : Byte) : decode .dec (cmdWord 0b01#2 data) = .decFeed data := by simp [decode]

theorem decode_enc_finishWord (data : Byte) : decode .enc (cmdWord 0b10#2 data) = .encFinish data := by simp [decode]

theorem decode_dec_finishWord (data : Byte) : decode .dec (cmdWord 0b10#2 data) = .decFinish data := by simp [decode]

end Sys2Proof

namespace Sys2Proof.Machine

/-- R92: an ignored byte changes nothing, whether the decoder accepts it or not. -/
theorem exec_decFeed_of_ignored {b : Byte} (hb : symbolOf b = none) (s : State) : exec (.decFeed b) s = .next s := by
  cases hready : s.decReady with
  | false => exact exec_of_dec_busy rfl hready
  | true =>
    calc exec (.decFeed b) s
      _ = .next (s.setDec (decFeedEffect b s.dec)) := exec_of_dec_ready rfl hready
      _ = .next (s.setDec s.dec) := by rw [decFeedEffect_of_ignored hb]

/-- Settles O4: the meanings of the FINISH commands do not read `DATA`, both FEED commands are legal, and the bytes
outside the alphabet are those `symbolOf` ignores. -/
theorem finishDataIgnoredFeedAlwaysLegal : Obligations.FinishDataIgnoredFeedAlwaysLegal := by
  unfold Obligations.FinishDataIgnoredFeedAlwaysLegal
  refine ⟨fun u data s => ?finish, fun u data => ?feed, fun data s hdata => ?ignored⟩
  case finish =>
    cases u with
    | enc => simp only [decode_enc_finishWord]; exact ⟨rfl, rfl⟩
    | dec => simp only [decode_dec_finishWord]; exact ⟨rfl, rfl⟩
  case feed =>
    cases u with
    | enc => rw [decode_enc_feedWord]; rfl
    | dec => rw [decode_dec_feedWord]; rfl
  case ignored =>
    rw [decode_dec_feedWord]
    exact exec_decFeed_of_ignored ((symbolOf_none_iff data).mpr hdata) s

end Sys2Proof.Machine
end

section
/-! SUPPORT. The fields that the encoder takes from a byte, against the shifts and masks the document writes
(40_encoder.md R77 to R79), and what the zero low bits of `ENC.NEXT` (R18) say of an index. -/

namespace Sys2Proof.Machine

section Fields

variable {w k l : Nat}

/-- The top bits of a value, in a field of any width, are its right shift. -/
theorem setWidth_extractLsb'_top (x : BitVec w) (v : Nat) (h : k + l = w) :
    (x.extractLsb' k l).setWidth v = (x >>> k).setWidth v := by
  refine BitVec.eq_of_toNat_eq ?_
  have hshift : x.toNat >>> k < 2 ^ l := by
    rw [Nat.shiftRight_eq_div_pow, Nat.div_lt_iff_lt_mul (by positivity), ← pow_add, Nat.add_comm l, h]
    exact x.isLt
  simp [Nat.mod_eq_of_lt hshift]

/-- The low `k` bits of a value are its mask by `2 ^ k - 1`. -/
theorem setWidth_extractLsb'_low (x : BitVec w) (k : Nat) :
    (x.extractLsb' 0 k).setWidth w = x &&& BitVec.ofNat w (2 ^ k - 1) := by
  refine BitVec.eq_of_getLsbD_eq fun i hi => ?_
  simp [-BitVec.getLsbD_eq_getElem, BitVec.getLsbD_ofNat, hi, Bool.and_comm]

/-- The low `k` bits with zeros put below them are their mask, shifted left. -/
theorem setWidth_extractLsb'_low_append_zero (x : BitVec w) (k l : Nat) :
    (x.extractLsb' 0 k ++ 0#l).setWidth w = (x &&& BitVec.ofNat w (2 ^ k - 1)) <<< l := by
  rw [BitVec.setWidth_append_eq_shiftLeft_setWidth_or, setWidth_extractLsb'_low]
  simp

/-- The largest value of a field of `k` bits with `l` zeros put below it. -/
theorem toNat_append_zero_le (x : BitVec k) (l : Nat) : (x ++ 0#l).toNat ≤ (2 ^ k - 1) * 2 ^ l := by
  rw [BitVec.toNat_append, BitVec.toNat_ofNat, Nat.zero_mod, Nat.or_zero, Nat.shiftLeft_eq]
  exact Nat.mul_le_mul_right _ (Nat.le_sub_one_of_lt x.isLt)

/-- Where the low bits of `n` are 0, an OR with a value of their width is a concatenation. -/
theorem or_setWidth_of_low_zero {n : BitVec (k + l)} (hn : n.extractLsb' 0 l = 0#l) (y : BitVec l) :
    n ||| y.setWidth (k + l) = n.extractLsb' l k ++ y := by
  have hsplit : n = n.extractLsb' l k ++ 0#l := by rw [← hn, BitVec.extractLsb'_append_extractLsb']
  have hy : y.setWidth (k + l) = 0#k ++ y := by
    refine BitVec.eq_of_toNat_eq ?_
    rw [BitVec.toNat_setWidth_of_le (Nat.le_add_left l k)]
    simp
  calc n ||| y.setWidth (k + l)
    _ = (n.extractLsb' l k ++ 0#l) ||| (0#k ++ y) := by rw [← hsplit, hy]
    _ = n.extractLsb' l k ++ y := by simp

/-- A value whose low `l` bits are 0 is a multiple of `2 ^ l`. -/
theorem toNat_mod_of_low_zero {n : BitVec w} (hn : n.extractLsb' 0 l = 0#l) : n.toNat % 2 ^ l = 0 := by
  simpa using congrArg BitVec.toNat hn

end Fields

/-- The document's `c >> 4` (R78). -/
theorem encTop4_eq_shift (c : Byte) : encTop4 c = (c >>> 4).setWidth 6 := setWidth_extractLsb'_top c 6 rfl

/-- The document's `c >> 6` (R79). -/
theorem encTop2_eq_shift (c : Byte) : encTop2 c = (c >>> 6).setWidth 6 := setWidth_extractLsb'_top c 6 rfl

/-- The index of R78 where `NEXT[3:0] = 0` (R18). -/
theorem encSecondIndex_of_next {n : Symbol} (hn : n.extractLsb' 0 4 = 0#4) (c : Byte) :
    n ||| encTop4 c = n.extractLsb' 4 2 ++ c.extractLsb' 4 4 :=
  or_setWidth_of_low_zero (k := 2) hn _

/-- The first index of R79 where `NEXT[1:0] = 0` (R18). -/
theorem encThirdIndex_of_next {n : Symbol} (hn : n.extractLsb' 0 2 = 0#2) (c : Byte) :
    n ||| encTop2 c = n.extractLsb' 2 4 ++ c.extractLsb' 6 2 :=
  or_setWidth_of_low_zero (k := 4) hn _

/-- The values of `ENC.NEXT` in state 1 (R18, R82): two bits above four zeros. -/
theorem encNext_values {n : Symbol} (hn : n.extractLsb' 0 4 = 0#4) : n = 0#6 ∨ n = 16#6 ∨ n = 32#6 ∨ n = 48#6 := by
  have hmod : n.toNat % 16 = 0 := toNat_mod_of_low_zero hn
  bv_omega

end Sys2Proof.Machine
end

section
/-! SUPPORT. The whole effect of the encoder's legal commands in each group state (40_encoder.md R77 to R79, R82, R83),
and the statements about them. -/

namespace Sys2Proof.Machine

/-- The next state of an encoder command that finds PHASE RUN and the free entries of R62 and R63. -/
theorem exec_enc_next {i : Instr} {s : State} {u : EncUnit} (hu : i.unit = .enc) (hphase : s.enc.phase = .run)
    (hfree : 3 ≤ s.cfg.encDepth - s.enc.outq.length) (heffect : encEffectOf i s.enc = u) :
    exec i s = .next { s with enc := u } := by
  subst heffect
  exact exec_of_enc_ready hu (s.encReady_iff.mpr ⟨hphase, hfree⟩)

theorem UnitRegs.emit_emit {G : Type} {w : Nat} (u : UnitRegs G w) (a b : Byte) :
    (u.emit a).emit b = { u with outq := u.outq ++ [a, b] } := by
  simp [UnitRegs.emit]

section Effects

variable {u : EncUnit}

/-- R77. -/
theorem encFeedEffect_of_g0 (hg : u.gstate = .g0) (c : Byte) :
    encFeedEffect c u = { u with
      outq := u.outq ++ [alpha (c.extractLsb' 2 6)], next := c.extractLsb' 0 2 ++ 0b0000#4, gstate := .g1 } := by
  simp only [encFeedEffect, hg]
  rfl

/-- R78. -/
theorem encFeedEffect_of_g1 (hg : u.gstate = .g1) (c : Byte) :
    encFeedEffect c u = { u with
      outq := u.outq ++ [alpha (u.next ||| (c >>> 4).setWidth 6)],
      next := c.extractLsb' 0 4 ++ 0b00#2, gstate := .g2 } := by
  simp only [encFeedEffect, hg, encTop4_eq_shift]
  rfl

/-- R79: NEXT is not written. -/
theorem encFeedEffect_of_g2 (hg : u.gstate = .g2) (c : Byte) :
    encFeedEffect c u = { u with
      outq := u.outq ++ [alpha (u.next ||| (c >>> 6).setWidth 6), alpha (c.extractLsb' 0 6)], gstate := .g0 } := by
  simp only [encFeedEffect, hg, encTop2_eq_shift, UnitRegs.emit_emit]
  rfl

/-- R82, with the end of the run of R80. -/
theorem encFinishEffect_of_g1 (hg : u.gstate = .g1) :
    encFinishEffect u = { u with
      outq := u.outq ++ [alpha u.next, padByte, padByte], gstate := .g0, next := 0#6, phase := .done } := by
  rw [← encFinishEffect_outq_of_g1 hg]
  simp only [encFinishEffect, encFinishEmits, hg]
  rfl

/-- R83, with the end of the run of R80. -/
theorem encFinishEffect_of_g2 (hg : u.gstate = .g2) :
    encFinishEffect u = { u with
      outq := u.outq ++ [alpha u.next, padByte], gstate := .g0, next := 0#6, phase := .done } := by
  simp only [encFinishEffect, encFinishEmits, hg, UnitRegs.emit_emit]
  rfl

end Effects

/-- Settles O9: the next state is that of `encFeedEffect_of_g0`; the fields are a right shift, and a mask shifted
left. -/
theorem encFeedFirstByte : Obligations.EncFeedFirstByte := by
  unfold Obligations.EncFeedFirstByte
  refine ⟨fun c s hphase hfree hg => ?next, fun c => ⟨?index, ?carry, ?bound⟩, by decide, by decide⟩
  case next => exact exec_enc_next rfl hphase hfree (encFeedEffect_of_g0 hg c)
  case index => exact BitVec.setWidth_ushiftRight_eq_extractLsb.symm
  case carry => exact setWidth_extractLsb'_low_append_zero c 2 4
  case bound => exact toNat_append_zero_le (c.extractLsb' 0 2) 4

/-- Settles O10: the next state is that of `encFeedEffect_of_g1`; the OR is a concatenation because the bits of NEXT
under `c >> 4` are 0. -/
theorem encFeedSecondByte : Obligations.EncFeedSecondByte := by
  unfold Obligations.EncFeedSecondByte
  refine ⟨fun c s hphase hfree hg => ?next, fun c n hn => ?index, fun c => ⟨?carry, ?bound⟩, by decide, by decide⟩
  case next => exact exec_enc_next rfl hphase hfree (encFeedEffect_of_g1 hg c)
  case index => exact encTop4_eq_shift c ▸ encSecondIndex_of_next hn c
  case carry => exact setWidth_extractLsb'_low_append_zero c 4 2
  case bound => exact toNat_append_zero_le (c.extractLsb' 0 4) 2

/-- Settles O11: the next state is that of `encFeedEffect_of_g2`; the OR is a concatenation because the bits of NEXT
under `c >> 6` are 0. -/
theorem encFeedThirdByte : Obligations.EncFeedThirdByte := by
  unfold Obligations.EncFeedThirdByte
  refine ⟨fun c s hphase hfree hg => ?next, fun c n hn => ?index, fun c => ?mask, by decide, by decide⟩
  case next => exact exec_enc_next rfl hphase hfree (encFeedEffect_of_g2 hg c)
  case index => exact encTop2_eq_shift c ▸ encThirdIndex_of_next hn c
  case mask => exact setWidth_extractLsb'_low c 6

/-- Settles O13: the next state is that of `encFinishEffect_of_g1`, the four characters are those of the values of
`encNext_values`, and the bound on the emit is `exec_length_le`'s. -/
theorem encFinishOneLeftoverByte : Obligations.EncFinishOneLeftoverByte := by
  unfold Obligations.EncFinishOneLeftoverByte
  refine ⟨fun _ s hphase hfree hg => ?next, fun n hn => ⟨encNext_values hn, ?char⟩, rfl, fun i s t h => ?bound⟩
  case next => exact exec_enc_next rfl hphase hfree (encFinishEffect_of_g1 hg)
  case char =>
    obtain rfl | rfl | rfl | rfl := encNext_values hn
    · exact .inl rfl
    · exact .inr (.inl rfl)
    · exact .inr (.inr (.inl rfl))
    · exact .inr (.inr (.inr rfl))
  case bound => exact (exec_length_le h).1

/-- Settles O14: the next state is that of `encFinishEffect_of_g2`, and an index with two zero low bits is a multiple
of 4. -/
theorem encFinishTwoLeftoverBytes : Obligations.EncFinishTwoLeftoverBytes := by
  unfold Obligations.EncFinishTwoLeftoverBytes
  refine ⟨fun _ s hphase hfree hg => ?next, fun n hn => ?index⟩
  case next => exact exec_enc_next rfl hphase hfree (encFinishEffect_of_g2 hg)
  case index => exact toNat_mod_of_low_zero hn

end Sys2Proof.Machine
end

section
/-! SUPPORT. Which bytes the decoder ignores and how many, and the statements about the classification and about the
bytes that DEC.FEED skips (41_decoder.md R90, R92). -/

namespace Sys2Proof.Machine

/-- A byte is ignored exactly when `IGN` of its entry is 1 (R90). -/
theorem symbolOf_eq_none_iff_ign (b : Byte) : symbolOf b = none ↔ invIgn (inv b) = true := by
  simp [symbolOf]

/-- The entries of ALPHA are printing characters other than the space, `=` and DEL (R39). -/
theorem alphaTable_printing : ∀ b ∈ alphaTable, 0x20 < b.toNat ∧ b.toNat < 0x7F ∧ b ≠ padByte := by decide

/-- `=`, DEL, the control bytes with the space, and the bytes from 0x80 are ignored (R42, R90). -/
theorem symbolOf_eq_none_of_not_printing {b : Byte}
    (hb : b = 0x3D#8 ∨ b = 0x7F#8 ∨ b.toNat ≤ 0x20 ∨ 0x80 ≤ b.toNat) : symbolOf b = none := by
  refine (symbolOf_none_iff b).mpr fun hmem => ?_
  obtain ⟨hlow, hhigh, hpad⟩ := alphaTable_printing b hmem
  obtain rfl | rfl | hle | hge := hb
  · exact hpad rfl
  · exact absurd hhigh (by decide)
  · omega
  · omega

/-- The numbers of the symbol bytes are those of the entries of ALPHA, each once (R39). -/
theorem symbolBytes_perm_alphaTable :
    ((List.range 256).filter fun n => !(symbolOf (BitVec.ofNat 8 n) == none)).Perm (alphaTable.map BitVec.toNat) := by
  refine (List.perm_ext_iff_of_nodup (List.nodup_range.filter _) (by decide)).mpr fun n => ?_
  have hsym : (!(symbolOf (BitVec.ofNat 8 n) == none)) = true ↔ BitVec.ofNat 8 n ∈ alphaTable := by
    rw [Bool.not_eq_true', beq_eq_false_iff_ne, Ne, symbolOf_none_iff, not_not]
  rw [List.mem_filter, hsym, List.mem_range, List.mem_map]
  constructor
  · rintro ⟨hn, hmem⟩
    exact ⟨_, hmem, Nat.mod_eq_of_lt hn⟩
  · rintro ⟨b, hb, rfl⟩
    exact ⟨b.isLt, by rwa [BitVec.ofNat_toNat, BitVec.setWidth_eq]⟩

/-- R90's count: all 256 bytes but the 64 entries of ALPHA. -/
theorem ignoredBytes_length :
    ((List.range 256).filter fun n => symbolOf (BitVec.ofNat 8 n) == none).length = 192 := by
  have hsymbols := symbolBytes_perm_alphaTable.length_eq
  rw [List.length_map, alphaTable_length] at hsymbols
  have hall := (List.range 256).length_eq_length_filter_add fun n => symbolOf (BitVec.ofNat 8 n) == none
  rw [List.length_range] at hall
  omega

/-- Settles O15: the bytes that INV ignores are those outside ALPHA (`symbolOf_none_iff`), whose 64 entries are all
printing characters. -/
theorem classification : Obligations.Classification := by
  unfold Obligations.Classification
  exact ⟨fun b => ⟨rfl, symbolOf_eq_none_iff_ign b, symbolOf_eq_some_of_not_ign, symbolOf_none_iff b,
    symbolOf_eq_none_of_not_printing⟩, ignoredBytes_length⟩

/-- Settles O16: an accepted FEED of an ignored byte has no effect, and one that is not accepted never has. -/
theorem decFeedIgnoredByte : Obligations.DecFeedIgnoredByte := by
  unfold Obligations.DecFeedIgnoredByte
  refine ⟨fun b s hb => exec_decFeed_of_ignored hb s, ?lineFeed⟩
  case lineFeed => exact symbolOf_eq_none_of_not_printing (by decide)

end Sys2Proof.Machine
end

section
/-! SUPPORT. The fields that the decoder takes from a symbol, against the shifts and concatenations the document writes
(41_decoder.md R93 to R95), and what the zero low bits of `DEC.NEXT` (R23) say of an emitted byte. -/

namespace Sys2Proof.Machine

section Fields

variable {w : Nat}

/-- A left shift puts zeros below the low bits that stay. -/
theorem setWidth_shiftLeft_eq_append_zero (x : BitVec w) (k l : Nat) :
    x.setWidth (k + l) <<< l = x.extractLsb' 0 k ++ 0#l := by
  refine BitVec.eq_of_getLsbD_eq fun i hi => ?_
  rw [BitVec.getLsbD_append, BitVec.getLsbD_shiftLeft]
  split_ifs with hlow
  · simp [hlow]
  · have hfield : i - l < k := by omega
    have hwide : i - l < k + l := by omega
    simp [-BitVec.getLsbD_eq_getElem, hi, hlow, hfield, hwide]

/-- A left shift in a wider word is the shift of the number, truncated. -/
theorem setWidth_shiftLeft_eq_ofNat (x : BitVec w) {v : Nat} (hv : w ≤ v) (l : Nat) :
    x.setWidth v <<< l = BitVec.ofNat v (x.toNat <<< l) := by
  refine BitVec.eq_of_toNat_eq ?_
  rw [BitVec.toNat_shiftLeft, BitVec.toNat_setWidth_of_le hv, BitVec.toNat_ofNat]

/-- Zeros put below a value shift its number left. -/
theorem toNat_append_zero (x : BitVec w) (l : Nat) : (x ++ 0#l).toNat = x.toNat <<< l := by
  rw [BitVec.toNat_append, BitVec.toNat_ofNat, Nat.zero_mod, Nat.or_zero]

end Fields

/-- `{d, 2'b00}` (R93). -/
theorem decCarry6_eq_append (d : Symbol) : decCarry6 d = d ++ 0b00#2 :=
  (setWidth_shiftLeft_eq_append_zero d 6 2).trans (by rw [BitVec.extractLsb'_eq_self])

/-- `{d[3:0], 4'b0000}` (R94). -/
theorem decCarry4_eq_append (d : Symbol) : decCarry4 d = d.extractLsb' 0 4 ++ 0b0000#4 :=
  setWidth_shiftLeft_eq_append_zero d 4 4

/-- `{d[1:0], 6'b000000}` (R95). -/
theorem decCarry2_eq_append (d : Symbol) : decCarry2 d = d.extractLsb' 0 2 ++ 0b000000#6 :=
  setWidth_shiftLeft_eq_append_zero d 2 6

/-- The document's `d >> 4` (R94). -/
theorem decTop2_eq_shift (d : Symbol) : decTop2 d = (d >>> 4).setWidth 8 := setWidth_extractLsb'_top d 8 rfl

/-- The document's `d >> 2` (R95). -/
theorem decTop4_eq_shift (d : Symbol) : decTop4 d = (d >>> 2).setWidth 8 := setWidth_extractLsb'_top d 8 rfl

/-- The byte of R94 where `NEXT[1:0] = 0` (R23). -/
theorem decSecondByte_of_next {n : Byte} (hn : n.extractLsb' 0 2 = 0#2) (d : Symbol) :
    n ||| decTop2 d = n.extractLsb' 2 6 ++ d.extractLsb' 4 2 :=
  or_setWidth_of_low_zero (k := 6) hn _

/-- The byte of R95 where `NEXT[3:0] = 0` (R23). -/
theorem decThirdByte_of_next {n : Byte} (hn : n.extractLsb' 0 4 = 0#4) (d : Symbol) :
    n ||| decTop4 d = n.extractLsb' 4 4 ++ d.extractLsb' 2 4 :=
  or_setWidth_of_low_zero (k := 4) hn _

end Sys2Proof.Machine
end

section
/-! SUPPORT. The whole effect of a symbol in each group state of the decoder (41_decoder.md R93 to R96), and the
statements about DEC.FEED of a symbol. -/

namespace Sys2Proof.Machine

/-- The next state of a decoder command that finds PHASE RUN and the free entry of R62 and R63. -/
theorem exec_dec_next {i : Instr} {s : State} {u : DecUnit} (hu : i.unit = .dec) (hphase : s.dec.phase = .run)
    (hfree : 1 ≤ s.cfg.decDepth - s.dec.outq.length) (heffect : decEffectOf i s.dec = u) :
    exec i s = .next { s with dec := u } := by
  subst heffect
  exact exec_of_dec_ready hu (s.decReady_iff.mpr ⟨hphase, hfree⟩)

/-- The next state of an accepted FEED of a symbol is that of the symbol's effect (R91). -/
theorem exec_decFeed_of_symbol {b : Byte} {d : Symbol} {s : State} {u : DecUnit} (hd : symbolOf b = some d)
    (hphase : s.dec.phase = .run) (hfree : 1 ≤ s.cfg.decDepth - s.dec.outq.length)
    (heffect : decSymbolEffect d s.dec = u) : exec (.decFeed b) s = .next { s with dec := u } :=
  exec_dec_next rfl hphase hfree ((decFeedEffect_of_symbol hd s.dec).trans heffect)

section Effects

variable {u : DecUnit}

/-- R93: nothing is emitted. -/
theorem decSymbolEffect_of_g0 (hg : u.gstate = .g0) (d : Symbol) :
    decSymbolEffect d u = { u with next := d ++ 0b00#2, gstate := .g1 } := by
  simp only [decSymbolEffect, hg, decCarry6_eq_append]
  rfl

/-- R94. -/
theorem decSymbolEffect_of_g1 (hg : u.gstate = .g1) (d : Symbol) :
    decSymbolEffect d u = { u with
      outq := u.outq ++ [u.next ||| (d >>> 4).setWidth 8], next := d.extractLsb' 0 4 ++ 0b0000#4, gstate := .g2 } := by
  simp only [decSymbolEffect, hg, decTop2_eq_shift, decCarry4_eq_append]
  rfl

/-- R95. -/
theorem decSymbolEffect_of_g2 (hg : u.gstate = .g2) (d : Symbol) :
    decSymbolEffect d u = { u with
      outq := u.outq ++ [u.next ||| (d >>> 2).setWidth 8],
      next := d.extractLsb' 0 2 ++ 0b000000#6, gstate := .g3 } := by
  simp only [decSymbolEffect, hg, decTop4_eq_shift, decCarry2_eq_append]
  rfl

/-- R96: NEXT is not written. -/
theorem decSymbolEffect_of_g3 (hg : u.gstate = .g3) (d : Symbol) :
    decSymbolEffect d u = { u with outq := u.outq ++ [u.next ||| d.setWidth 8], gstate := .g0 } := by
  simp only [decSymbolEffect, hg]
  rfl

end Effects

/-- Settles O17: the next state is that of `decSymbolEffect_of_g0`; two zeros below a symbol are a left shift, and the
largest symbol gives the bound. -/
theorem decFeedFirstSymbol : Obligations.DecFeedFirstSymbol := by
  unfold Obligations.DecFeedFirstSymbol
  refine ⟨fun b d s hd hphase hfree hg => ?next, fun d => ?shift, by decide⟩
  case next => exact exec_decFeed_of_symbol hd hphase hfree (decSymbolEffect_of_g0 hg d)
  case shift =>
    have hshift : (d ++ 0b00#2 : Byte).toNat = d.toNat <<< 2 := toNat_append_zero d 2
    exact ⟨hshift, hshift ▸ toNat_append_zero_le d 2⟩

/-- Settles O18: the next state is that of `decSymbolEffect_of_g1`; the OR is a concatenation because the bits of NEXT
under `d >> 4` are 0, and the new NEXT is the truncated left shift. -/
theorem decFeedSecondSymbol : Obligations.DecFeedSecondSymbol := by
  unfold Obligations.DecFeedSecondSymbol
  refine ⟨fun b d s hd hphase hfree hg => ?next, fun n d hn => ?byte, fun d => ?carry, by decide, by decide⟩
  case next => exact exec_decFeed_of_symbol hd hphase hfree (decSymbolEffect_of_g1 hg d)
  case byte => exact decTop2_eq_shift d ▸ decSecondByte_of_next hn d
  case carry => exact (decCarry4_eq_append d).symm.trans (setWidth_shiftLeft_eq_ofNat d (by decide) 4)

/-- Settles O19: the next state is that of `decSymbolEffect_of_g2`; the OR is a concatenation because the bits of NEXT
under `d >> 2` are 0, and the new NEXT is the truncated left shift. -/
theorem decFeedThirdSymbol : Obligations.DecFeedThirdSymbol := by
  unfold Obligations.DecFeedThirdSymbol
  refine ⟨fun b d s hd hphase hfree hg => ?next, fun n d hn => ?byte, fun d => ?carry, by decide, by decide⟩
  case next => exact exec_decFeed_of_symbol hd hphase hfree (decSymbolEffect_of_g2 hg d)
  case byte => exact decTop4_eq_shift d ▸ decThirdByte_of_next hn d
  case carry => exact (decCarry2_eq_append d).symm.trans (setWidth_shiftLeft_eq_ofNat d (by decide) 6)

/-- Settles O20: the next state is that of `decSymbolEffect_of_g3`; the OR is a concatenation because the bits of NEXT
under `d` are 0. -/
theorem decFeedFourthSymbol : Obligations.DecFeedFourthSymbol := by
  unfold Obligations.DecFeedFourthSymbol
  refine ⟨fun b d s hd hphase hfree hg => ?next, fun n d hn => ?byte, by decide⟩
  case next => exact exec_decFeed_of_symbol hd hphase hfree (decSymbolEffect_of_g3 hg d)
  case byte => exact or_setWidth_of_low_zero (k := 2) hn d

end Sys2Proof.Machine
end

section
/-! SUPPORT. The reserved commands: the words that decode to them, the fault entry that is their whole effect, and the
statement about it (30_encoding.md R69, 60_exceptions.md R107). -/

namespace Sys2Proof

section Reserved

variable {w : CmdWord}

/-- R69 on the encoder's port. -/
theorem decode_enc_reservedOp (hop : cmdOp w = 0b00#2 ∨ cmdOp w = 0b11#2) :
    decode .enc w = .encRsvd00 (cmdData w) ∨ decode .enc w = .encRsvd11 (cmdData w) := by
  obtain hop | hop := hop
  · exact .inl (by simp [decode, hop])
  · exact .inr (by simp [decode, hop])

/-- R69 on the decoder's port. -/
theorem decode_dec_reservedOp (hop : cmdOp w = 0b00#2 ∨ cmdOp w = 0b11#2) :
    decode .dec w = .decRsvd00 (cmdData w) ∨ decode .dec w = .decRsvd11 (cmdData w) := by
  obtain hop | hop := hop
  · exact .inl (by simp [decode, hop])
  · exact .inr (by simp [decode, hop])

end Reserved

end Sys2Proof

namespace Sys2Proof.Machine

section Reserved

variable {w : CmdWord}

/-- R107 on the encoder: both reserved operations have fault entry as their effect. -/
theorem encEffectOf_reservedOp (hop : cmdOp w = 0b00#2 ∨ cmdOp w = 0b11#2) (u : EncUnit) :
    encEffectOf (decode .enc w) u = u.raiseFault .illegalOp := by
  obtain hdecode | hdecode := decode_enc_reservedOp hop
  · rw [hdecode, encEffectOf]
  · rw [hdecode, encEffectOf]

/-- R107 on the decoder: both reserved operations have fault entry as their effect. -/
theorem decEffectOf_reservedOp (hop : cmdOp w = 0b00#2 ∨ cmdOp w = 0b11#2) (u : DecUnit) :
    decEffectOf (decode .dec w) u = u.raiseFault .illegalOp := by
  obtain hdecode | hdecode := decode_dec_reservedOp hop
  · rw [hdecode, decEffectOf]
  · rw [hdecode, decEffectOf]

end Reserved

/-- The fields PHASE and ERRC of the status word after fault entry (R27, R107). -/
theorem UnitRegs.status_raiseFault {G : Type} {w : Nat} (u : UnitRegs G w) (code : ErrCode) (gbits : G → BitVec 2) :
    ((u.raiseFault code).status gbits).extractLsb' 0 2 = Phase.fault.bits ∧
    ((u.raiseFault code).status gbits).extractLsb' 6 2 = code.bits :=
  ⟨UnitRegs.status_phase _ gbits, UnitRegs.status_errc _ gbits⟩

/-- Settles O22: on each unit a reserved word's effect is fault entry, which writes PHASE and ERRC alone, and the status
fields are those of `UnitRegs.status_raiseFault`. -/
theorem reservedOpsRaiseIllegalOp : Obligations.ReservedOpsRaiseIllegalOp := by
  unfold Obligations.ReservedOpsRaiseIllegalOp
  refine ⟨fun w s hop hphase hfree => ⟨_, ?encNext, rfl, ?encStatus⟩,
    fun w s hop hphase hfree => ⟨_, ?decNext, rfl, ?decStatus⟩⟩
  case encNext => exact exec_enc_next (decode_enc_unit w) hphase hfree (encEffectOf_reservedOp hop s.enc)
  case encStatus => exact s.enc.status_raiseFault .illegalOp EncGroup.bits
  case decNext => exact exec_dec_next (decode_dec_unit w) hphase hfree (decEffectOf_reservedOp hop s.dec)
  case decStatus => exact s.dec.status_raiseFault .illegalOp DecGroup.bits

end Sys2Proof.Machine
end

section
/-! SUPPORT. The words of the commands and the rows of the opcode table (30_encoding.md R58, R59, R69), and the
statements about decoding, about the table and about the lines of R73 and R74. -/

namespace Sys2Proof

/-- The four values of `OP` (R59). -/
theorem op_cases (op : BitVec 2) : op = 0b01#2 ∨ op = 0b10#2 ∨ op = 0b00#2 ∨ op = 0b11#2 := by
  bv_omega

/-- A word is its two fields (R58). -/
theorem cmdWord_cmdOp_cmdData (w : CmdWord) : cmdWord (cmdOp w) (cmdData w) = w :=
  BitVec.extractLsb'_append_extractLsb'

theorem decode_op (u : UnitId) (w : CmdWord) : (decode u w).op = cmdOp w := by
  cases u with
  | enc => obtain hop | hop | hop | hop := op_cases (cmdOp w) <;> simp [decode, hop, Instr.op]
  | dec => obtain hop | hop | hop | hop := op_cases (cmdOp w) <;> simp [decode, hop, Instr.op]

theorem decode_data (u : UnitId) (w : CmdWord) : (decode u w).data = cmdData w := by
  cases u with
  | enc => obtain hop | hop | hop | hop := op_cases (cmdOp w) <;> simp [decode, hop, Instr.data]
  | dec => obtain hop | hop | hop | hop := op_cases (cmdOp w) <;> simp [decode, hop, Instr.data]

@[simp] theorem decode_unit (u : UnitId) (w : CmdWord) : (decode u w).unit = u := by
  cases u
  · exact Machine.decode_enc_unit w
  · exact Machine.decode_dec_unit w

/-- The commands of the encoder, and no other (R59). -/
theorem Instr.of_unit_enc {i : Instr} (h : i.unit = .enc) :
    (∃ c, i = .encFeed c) ∨ (∃ b, i = .encFinish b) ∨ ∃ b, i = .encRsvd00 b ∨ i = .encRsvd11 b := by
  cases i with
  | encFeed c => exact .inl ⟨c, rfl⟩
  | encFinish b => exact .inr (.inl ⟨b, rfl⟩)
  | encRsvd00 b => exact .inr (.inr ⟨b, .inl rfl⟩)
  | encRsvd11 b => exact .inr (.inr ⟨b, .inr rfl⟩)
  | _ => cases h

/-- The commands of the decoder, and no other (R59). -/
theorem Instr.of_unit_dec {i : Instr} (h : i.unit = .dec) :
    (∃ b, i = .decFeed b) ∨ (∃ b, i = .decFinish b) ∨ ∃ b, i = .decRsvd00 b ∨ i = .decRsvd11 b := by
  cases i with
  | decFeed b => exact .inl ⟨b, rfl⟩
  | decFinish b => exact .inr (.inl ⟨b, rfl⟩)
  | decRsvd00 b => exact .inr (.inr ⟨b, .inl rfl⟩)
  | decRsvd11 b => exact .inr (.inr ⟨b, .inr rfl⟩)
  | _ => cases h

theorem decode_encode (i : Instr) : decode i.unit (encode i) = i := by
  cases i <;> simp [decode, encode, Instr.op, Instr.data, Instr.unit]

theorem encode_decode (u : UnitId) (w : CmdWord) : encode (decode u w) = w := by
  rw [encode, decode_op, decode_data, cmdWord_cmdOp_cmdData]

/-- Settles O1: a command's word has its operation code and `DATA` as fields, which `decode` reads; a word is its two
fields. -/
theorem decodeEncodeRoundTrip : Obligations.DecodeEncodeRoundTrip := by
  unfold Obligations.DecodeEncodeRoundTrip
  refine ⟨fun u i hport => ?command, fun u w => ⟨?port, encode_decode u w⟩⟩
  case command =>
    obtain rfl : i.unit = u := by simpa [Instr.wellFormedOn] using hport
    exact decode_encode i
  case port => simp [Instr.wellFormedOn]

/-- Settles O2, by reading the two fields of each of the eight words. -/
theorem writtenOutWordsDecode : Obligations.WrittenOutWordsDecode := by
  unfold Obligations.WrittenOutWordsDecode
  decide

/-- A word under the mask of the table's rows is its `OP` with zeros for `DATA`. -/
theorem and_rowMask (w : CmdWord) : w &&& 0x300#10 = cmdWord (cmdOp w) 0#8 := by
  calc w &&& 0x300#10
    _ = cmdWord (cmdOp w) (cmdData w) &&& cmdWord 0b11#2 0#8 := by rw [cmdWord_cmdOp_cmdData]; rfl
    _ = cmdWord (cmdOp w &&& 0b11#2) (cmdData w &&& 0#8) := BitVec.and_append
    _ = cmdWord (cmdOp w) 0#8 := by rw [BitVec.and_zero, show 0b11#2 = BitVec.allOnes 2 from rfl, BitVec.and_allOnes]

/-- R70: the illegal commands are those with a reserved operation code. -/
theorem Instr.legal_eq_false_iff (i : Instr) : i.legal = false ↔ i.op = 0b00#2 ∨ i.op = 0b11#2 := by
  cases i <;> simp [Instr.legal, Instr.op]

/-- The rows of the table that a word matches: of the port's unit the one with the word's `OP`. -/
theorem hits_rows (u : UnitId) (w : CmdWord) :
    opcodeRows.filter (fun r => r.hits u w) = [(decode u w).row] := by
  have hmask := and_rowMask w
  cases u with
  | enc =>
    obtain hop | hop | hop | hop := op_cases (cmdOp w) <;>
      simp [opcodeRows, OpcodeRow.hits, Instr.row, hmask, hop, decode, cmdWord]
  | dec =>
    obtain hop | hop | hop | hop := op_cases (cmdOp w) <;>
      simp [opcodeRows, OpcodeRow.hits, Instr.row, hmask, hop, decode, cmdWord]

/-- Settles O3: the row that hits is the one with the word's `OP`, and so is the decoded command's operation code. -/
theorem opcodeRowsPartitionWords : Obligations.OpcodeRowsPartitionWords := by
  unfold Obligations.OpcodeRowsPartitionWords
  refine fun u w => ⟨hits_rows u w, ?_⟩
  rw [Instr.legal_eq_false_iff, decode_op]

end Sys2Proof

namespace Sys2Proof.Machine

/-- R73's number for a FEED word. -/
theorem feedWord_eq_add (b : Byte) : cmdWord 0b01#2 b = 0x100#10 + b.setWidth 10 := by
  refine BitVec.eq_of_toNat_eq ?_
  have hb := b.isLt
  rw [cmdWord, BitVec.toNat_append, BitVec.toNat_add, BitVec.toNat_setWidth_of_le (by decide),
    ← Nat.shiftLeft_add_eq_or_of_lt hb]
  simp only [BitVec.toNat_ofNat, Nat.reducePow, Nat.one_mod, Nat.reduceShiftLeft, Nat.reduceMod]
  omega

/-- R74: the words of `feeds` are those of one `feed` line for each byte. -/
theorem words_feeds (u : UnitId) (bs : List Byte) :
    (AsmLine.feeds u bs).words = listingWords (bs.map (AsmLine.feed u)) := by
  induction bs with
  | nil => rfl
  | cons b bs ih =>
    calc (AsmLine.feeds u (b :: bs)).words
      _ = cmdWord 0b01#2 b :: (AsmLine.feeds u bs).words := rfl
      _ = cmdWord 0b01#2 b :: listingWords (bs.map (AsmLine.feed u)) := by rw [ih]
      _ = listingWords ((b :: bs).map (AsmLine.feed u)) := rfl

theorem words_feeds_append (u : UnitId) (as bs : List Byte) :
    (AsmLine.feeds u (as ++ bs)).words = (AsmLine.feeds u as).words ++ (AsmLine.feeds u bs).words :=
  List.map_append

/-- Settles O5: the words of `feeds` are those of `words_feeds`, and the eight lines are read by the parser. -/
theorem syntaxWords : Obligations.SyntaxWords := by
  unfold Obligations.SyntaxWords
  refine ⟨fun u b w => ⟨congrArg (fun v => [v]) (feedWord_eq_add b), rfl, rfl⟩, fun _ => rfl, words_feeds,
    fun u as bs => ?append, ⟨rfl, rfl⟩, ?lines⟩
  case append => rw [words_feeds_append, words_feeds u as]
  case lines => decide

end Sys2Proof.Machine
end

section
/-! SUPPORT. One unit's part of a clock event, said once for both units: a function of the unit's registers, of the
host's record of its run and of its pins (30_encoding.md R66, 20_memory.md R56). `step_encRun` and `step_decRun` tie it
to the step, `steps_encRun` and `steps_decRun` to runs. -/

namespace Sys2Proof.Machine

/-- What makes a unit the encoder or the decoder: its name, its registers after reset, its queue depth and `MAXEMIT`,
and the effects of its commands. -/
structure UnitKind (G : Type) (w : Nat) where
  unit     : UnitId
  start    : UnitRegs G w
  depth    : Nat
  maxEmit  : Nat
  effect   : Instr → UnitRegs G w → UnitRegs G w

/-- The encoder with a queue of the given depth. -/
def encKind (depth : Nat) : UnitKind EncGroup 6 := ⟨.enc, EncUnit.reset, depth, encMaxEmit, encEffectOf⟩

/-- The decoder with a queue of the given depth. -/
def decKind (depth : Nat) : UnitKind DecGroup 8 := ⟨.dec, DecUnit.reset, depth, decMaxEmit, decEffectOf⟩

/-- A unit's registers and queue, with the bytes the host has popped in its run (R48). -/
structure UnitRun (G : Type) (w : Nat) where
  regs   : UnitRegs G w
  stream : List Byte

def State.encRun (s : State) : UnitRun EncGroup 6 := ⟨s.enc, s.env.encStream⟩

def State.decRun (s : State) : UnitRun DecGroup 8 := ⟨s.dec, s.env.decStream⟩

@[simp] theorem State.encRun_regs (s : State) : s.encRun.regs = s.enc := rfl
@[simp] theorem State.encRun_stream (s : State) : s.encRun.stream = s.env.encStream := rfl
@[simp] theorem State.decRun_regs (s : State) : s.decRun.regs = s.dec := rfl
@[simp] theorem State.decRun_stream (s : State) : s.decRun.stream = s.env.decStream := rfl

/-- The unit takes a byte at the edge where it has one (R64). -/
def takes (e : Option Pins) : Bool :=
  match e with
  | some p => p.outReady
  | none => false

section UnitMachine

variable {G : Type} {w : Nat}

/-- All bytes of the run so far, popped or still queued (R48). -/
def UnitRun.output (x : UnitRun G w) : List Byte := x.stream ++ x.regs.outq

/-- The pop of a byte (R64). -/
def UnitRun.pop (x : UnitRun G w) : UnitRun G w := ⟨x.regs.dropHead, x.stream ++ x.regs.outq.take 1⟩

@[simp] theorem UnitRun.pop_regs (x : UnitRun G w) : x.pop.regs = x.regs.dropHead := rfl
@[simp] theorem UnitRun.pop_stream (x : UnitRun G w) : x.pop.stream = x.stream ++ x.regs.outq.take 1 := rfl

/-- A pop moves a byte and loses none (R48). -/
@[simp] theorem UnitRun.pop_output (x : UnitRun G w) : x.pop.output = x.output :=
  Machine.pop_output x.stream x.regs.outq

variable (K : UnitKind G w)

/-- The command the unit accepts at an edge, if any (R62). -/
def UnitKind.accepted (e : Option Pins) (u : UnitRegs G w) : Option Instr :=
  accepts K.unit (u.accepting K.depth K.maxEmit) e

/-- The registers after the effect of the accepted command, if any. -/
def UnitKind.commanded (accepted : Option Instr) (u : UnitRegs G w) : UnitRegs G w :=
  match accepted with
  | some i => K.effect i u
  | none => u

/-- One unit's part of a clock event (R66): reset, or the command accepted and then the pop, which is enabled by the
queue before the edge. -/
def UnitKind.edge (e : Option Pins) (x : UnitRun G w) : UnitRun G w :=
  if resets e then ⟨K.start, []⟩
  else
    let y : UnitRun G w := ⟨K.commanded (K.accepted e x.regs) x.regs, x.stream⟩
    if x.regs.hasByte && takes e then y.pop else y

/-- One unit's part of a sequence of clock events. -/
def UnitKind.run (es : List (Option Pins)) (x : UnitRun G w) : UnitRun G w := es.foldl (fun y e => K.edge e y) x

@[simp] theorem UnitKind.run_nil (x : UnitRun G w) : K.run [] x = x := rfl

@[simp] theorem UnitKind.run_cons (e : Option Pins) (es : List (Option Pins)) (x : UnitRun G w) :
    K.run (e :: es) x = K.run es (K.edge e x) := rfl

/-- A unit without an edge holds its state (R119). -/
@[simp] theorem UnitKind.edge_none (x : UnitRun G w) : K.edge none x = x := by
  simp [edge, resets, takes, accepted, accepts, commanded]

theorem UnitKind.edge_of_resets {e : Option Pins} (he : resets e = true) (x : UnitRun G w) :
    K.edge e x = ⟨K.start, []⟩ := by
  simp [edge, he]

/-- An edge without reset is the accepted command's effect, popped or not; the pop needs a byte that was there. -/
theorem UnitKind.edge_cases {e : Option Pins} (he : resets e = false) (x : UnitRun G w) :
    let y : UnitRun G w := ⟨K.commanded (K.accepted e x.regs) x.regs, x.stream⟩
    K.edge e x = y ∨ x.regs.outq ≠ [] ∧ K.edge e x = y.pop := by
  simp only [edge, he, Bool.false_eq_true, if_false, Bool.and_eq_true, UnitRegs.hasByte_iff]
  split_ifs with hpop
  · exact .inr ⟨hpop.1, rfl⟩
  · exact .inl rfl

/-- A command is accepted of the unit alone, by a unit in RUN with room for the largest emit (R62, R63). -/
theorem UnitKind.of_accepted {e : Option Pins} {u : UnitRegs G w} {i : Instr} (h : K.accepted e u = some i) :
    i.unit = K.unit ∧ u.phase = .run ∧ K.maxEmit ≤ K.depth - u.outq.length := by
  cases e with
  | none => simp [accepted, accepts] at h
  | some p =>
    simp only [accepted, accepts, Option.ite_none_right_eq_some, Bool.and_eq_true, Option.some.injEq] at h
    obtain ⟨⟨-, hready⟩, rfl⟩ := h
    exact ⟨decode_unit _ _, (u.accepting_iff _ _).1 hready⟩

/-- The induction over the parts of an edge, packaged once: a relation between a run's history and its unit that a
reset, an accepted command and a pop keep is kept by an edge. -/
theorem UnitKind.edge_keeps {P : RunHistory → UnitRun G w → Prop}
    (reset : P .start ⟨K.start, []⟩)
    (command : ∀ h x i, i.unit = K.unit → x.regs.phase = .run → K.maxEmit ≤ K.depth - x.regs.outq.length → P h x →
      P (h.record i) ⟨K.effect i x.regs, x.stream⟩)
    (pop : ∀ h x, P h x → P h x.pop)
    {h : RunHistory} {x : UnitRun G w} (e : Option Pins) (hx : P h x) :
    P (h.after (resets e) (K.accepted e x.regs)) (K.edge e x) := by
  cases he : resets e with
  | true => rw [K.edge_of_resets he]; exact reset
  | false =>
    have hy : P (h.after false (K.accepted e x.regs)) ⟨K.commanded (K.accepted e x.regs) x.regs, x.stream⟩ := by
      cases ha : K.accepted e x.regs with
      | none => exact hx
      | some i =>
        obtain ⟨hunit, hphase, hfree⟩ := K.of_accepted ha
        exact command h x i hunit hphase hfree hx
    obtain heq | ⟨-, heq⟩ := K.edge_cases he x
    · rw [heq]; exact hy
    · rw [heq]; exact pop _ _ hy

end UnitMachine

/-! ### The units of the machine -/

/-- The command of an edge without reset is that of its unit. -/
theorem encCommanded_enc {p : Pins} (hr : p.rst = false) (s : State) :
    (encCommanded p s).enc =
      (encKind s.cfg.encDepth).commanded ((encKind s.cfg.encDepth).accepted (some p) s.enc) s.enc := by
  cases hv : p.cmdValid <;> cases hready : s.enc.accepting s.cfg.encDepth encMaxEmit <;>
    simp [encCommanded, State.encReady, UnitKind.commanded, UnitKind.accepted, accepts, encKind, hv, hr, hready]

/-- The encoder's part of an event is the edge of its unit. -/
theorem encTicked_encRun (e : Option Pins) (s : State) :
    (encTicked e s).encRun = (encKind s.cfg.encDepth).edge e s.encRun := by
  cases e with
  | none => simp [encTicked]
  | some p =>
    cases hr : p.rst with
    | true => simp [encTicked, UnitKind.edge, resets, hr, State.encRun, encKind]
    | false =>
      have hc := encCommanded_enc hr s
      simp only [encTicked, UnitKind.edge, resets, takes, hr, ← hc, State.encRun, Bool.false_eq_true, if_false]
      split_ifs <;> simp [UnitRun.pop]

/-- The command of an edge without reset is that of its unit. -/
theorem decCommanded_dec {p : Pins} (hr : p.rst = false) (s : State) :
    (decCommanded p s).dec =
      (decKind s.cfg.decDepth).commanded ((decKind s.cfg.decDepth).accepted (some p) s.dec) s.dec := by
  cases hv : p.cmdValid <;> cases hready : s.dec.accepting s.cfg.decDepth decMaxEmit <;>
    simp [decCommanded, State.decReady, UnitKind.commanded, UnitKind.accepted, accepts, decKind, hv, hr, hready]

/-- The decoder's part of an event is the edge of its unit. -/
theorem decTicked_decRun (e : Option Pins) (s : State) :
    (decTicked e s).decRun = (decKind s.cfg.decDepth).edge e s.decRun := by
  cases e with
  | none => simp [decTicked]
  | some p =>
    cases hr : p.rst with
    | true => simp [decTicked, UnitKind.edge, resets, hr, State.decRun, decKind]
    | false =>
      have hc := decCommanded_dec hr s
      simp only [decTicked, UnitKind.edge, resets, takes, hr, ← hc, State.decRun, Bool.false_eq_true, if_false]
      split_ifs <;> simp [UnitRun.pop]

/-- A step is an edge of each unit, on its own pins. -/
theorem step_encRun {s t : State} (h : step s = .next t) :
    t.encRun = (encKind s.cfg.encDepth).edge s.encPins s.encRun := by
  obtain ⟨-, -, -, hregs, hstream, -, -⟩ := step_units h
  rw [← encTicked_encRun, State.encRun, hregs, hstream]
  rfl

/-- A step is an edge of each unit, on its own pins. -/
theorem step_decRun {s t : State} (h : step s = .next t) :
    t.decRun = (decKind s.cfg.decDepth).edge s.decPins s.decRun := by
  obtain ⟨-, -, -, -, -, hregs, hstream⟩ := step_units h
  rw [← decTicked_decRun, State.decRun, hregs, hstream]
  rfl

/-- What a step does to the rest of the state. -/
theorem step_frame {s t : State} (h : step s = .next t) :
    t.cfg = s.cfg ∧ t.env.ticks = s.env.ticks.tail ∧ t.env.draws = s.env.draws + 1 := by
  obtain ⟨hcfg, hticks, hdraws, -⟩ := step_units h
  exact ⟨hcfg, hticks, hdraws⟩

/-- Every step answers a next state (R89, R103). -/
theorem exists_step (s : State) : ∃ t, step s = .next t := ⟨_, step_eq s⟩

/-! ### Runs -/

/-- Every run answers a next state. -/
theorem exists_steps (k : Nat) (s : State) : ∃ t, steps k s = .next t := by
  induction k generalizing s with
  | zero => exact ⟨s, rfl⟩
  | succ k ih =>
    obtain ⟨u, hu⟩ := exists_step s
    obtain ⟨t, ht⟩ := ih u
    exact ⟨t, by rw [steps_succ, hu, andThen_next, ht]⟩

/-- What a run does to the rest of the state. -/
theorem steps_frame {k : Nat} {s t : State} (h : steps k s = .next t) :
    t.cfg = s.cfg ∧ t.env.ticks = s.env.ticks.drop k ∧ t.env.draws = s.env.draws + k := by
  induction k generalizing s with
  | zero => cases h; exact ⟨rfl, rfl, rfl⟩
  | succ k ih =>
    obtain ⟨u, hstep, hrest⟩ := steps_succ_next h
    obtain ⟨hcfg, hticks, hdraws⟩ := step_frame hstep
    obtain ⟨hcfg', hticks', hdraws'⟩ := ih hrest
    refine ⟨hcfg'.trans hcfg, ?_, ?_⟩
    · rw [hticks', hticks, ← List.drop_one, List.drop_drop, Nat.add_comm]
    · rw [hdraws', hdraws]; omega

/-- One more edge, at the front of the events of a run; where none is left the unit holds its state. -/
theorem UnitKind.run_take_succ {G : Type} {w : Nat} (K : UnitKind G w) (k : Nat) (es : List (Option Pins))
    (x : UnitRun G w) : K.run (es.take (k + 1)) x = K.run (es.tail.take k) (K.edge es.head?.join x) := by
  cases es with
  | nil => simp
  | cons e es => rfl

theorem State.encPins_eq (s : State) : s.encPins = (s.env.ticks.map Tick.enc).head?.join := by
  cases h : s.env.ticks <;> simp [State.encPins, h]

theorem State.decPins_eq (s : State) : s.decPins = (s.env.ticks.map Tick.dec).head?.join := by
  cases h : s.env.ticks <;> simp [State.decPins, h]

/-- A run is the run of each unit, on its own pins (R56). -/
theorem steps_encRun {k : Nat} {s t : State} (h : steps k s = .next t) :
    t.encRun = (encKind s.cfg.encDepth).run ((s.env.ticks.map Tick.enc).take k) s.encRun := by
  induction k generalizing s with
  | zero => cases h; rfl
  | succ k ih =>
    obtain ⟨u, hstep, hrest⟩ := steps_succ_next h
    obtain ⟨hcfg, hticks, -⟩ := step_frame hstep
    rw [ih hrest, hcfg, hticks, step_encRun hstep, UnitKind.run_take_succ, s.encPins_eq, List.map_tail]

/-- A run is the run of each unit, on its own pins (R56). -/
theorem steps_decRun {k : Nat} {s t : State} (h : steps k s = .next t) :
    t.decRun = (decKind s.cfg.decDepth).run ((s.env.ticks.map Tick.dec).take k) s.decRun := by
  induction k generalizing s with
  | zero => cases h; rfl
  | succ k ih =>
    obtain ⟨u, hstep, hrest⟩ := steps_succ_next h
    obtain ⟨hcfg, hticks, -⟩ := step_frame hstep
    rw [ih hrest, hcfg, hticks, step_decRun hstep, UnitKind.run_take_succ, s.decPins_eq, List.map_tail]

end Sys2Proof.Machine
end

section
/-! SUPPORT. The units are independent (20_memory.md R56): the statement about two machines that agree on one unit. -/

namespace Sys2Proof.Machine

/-- Settles O49: a unit's run is a function of its queue depth, its registers, its record and its pins
(`steps_encRun`, `steps_decRun`). -/
theorem unitsAreIndependent : Obligations.UnitsAreIndependent := by
  unfold Obligations.UnitsAreIndependent
  constructor
  · intro k s s' t t' hdepth hregs hstream hpins ht ht'
    have hrun : t.encRun = t'.encRun := by
      rw [steps_encRun ht, steps_encRun ht', hdepth, hpins, State.encRun, hregs, hstream]; rfl
    exact ⟨congrArg UnitRun.regs hrun, congrArg UnitRun.stream hrun⟩
  · intro k s s' t t' hdepth hregs hstream hpins ht ht'
    have hrun : t.decRun = t'.decRun := by
      rw [steps_decRun ht, steps_decRun ht', hdepth, hpins, State.decRun, hregs, hstream]; rfl
    exact ⟨congrArg UnitRun.regs hrun, congrArg UnitRun.stream hrun⟩

end Sys2Proof.Machine
end

section
/-! SUPPORT. What a command does to the phase, the error code and the low bits of NEXT, the invariant of each unit along
an edge, and the statements about invariants of the whole machine (10_state.md R16 to R25). -/

namespace Sys2Proof.Machine

/-! ### The registers a command keeps -/

/-- FEED keeps PHASE and ERRC (R76 to R79). -/
theorem encFeedEffect_frame (c : Byte) (u : EncUnit) :
    (encFeedEffect c u).phase = u.phase ∧ (encFeedEffect c u).errc = u.errc := by
  unfold encFeedEffect
  cases u.gstate <;> exact ⟨rfl, rfl⟩

/-- FEED keeps PHASE and ERRC (R92 to R96). -/
theorem decFeedEffect_frame (b : Byte) (u : DecUnit) :
    (decFeedEffect b u).phase = u.phase ∧ (decFeedEffect b u).errc = u.errc := by
  cases hb : symbolOf b with
  | none => rw [decFeedEffect_of_ignored hb]; exact ⟨rfl, rfl⟩
  | some d =>
    rw [decFeedEffect_of_symbol hb, decSymbolEffect]
    cases u.gstate <;> exact ⟨rfl, rfl⟩

/-- FINISH keeps ERRC (R80 to R83). -/
theorem encFinishEffect_errc (u : EncUnit) : (encFinishEffect u).errc = u.errc := by
  unfold encFinishEffect encFinishEmits
  cases u.gstate <;> rfl

/-! ### The invariant of one unit -/

/-- The zero bits of NEXT after a byte (R18): the concatenations of R77 and R78 put them there, and R79 keeps NEXT. -/
theorem encFeedEffect_nextOk (c : Byte) {u : EncUnit} (h : EncUnit.NextOk u) : EncUnit.NextOk (encFeedEffect c u) := by
  obtain ⟨-, -, h2⟩ := h
  cases hg : u.gstate with
  | g0 => rw [encFeedEffect_of_g0 hg]; exact ⟨nofun, fun _ => BitVec.extractLsb'_append_eq_right, nofun⟩
  | g1 => rw [encFeedEffect_of_g1 hg]; exact ⟨nofun, nofun, fun _ => BitVec.extractLsb'_append_eq_right⟩
  | g2 => rw [encFeedEffect_of_g2 hg]; exact ⟨fun _ => h2 hg, nofun, nofun⟩

/-- The zero bits of NEXT after a symbol (R23): the concatenations of R93 to R95 put them there, and R96 keeps NEXT. -/
theorem decSymbolEffect_nextOk (d : Symbol) {u : DecUnit} (h : DecUnit.NextOk u) :
    DecUnit.NextOk (decSymbolEffect d u) := by
  obtain ⟨-, -, -, h3⟩ := h
  cases hg : u.gstate with
  | g0 => rw [decSymbolEffect_of_g0 hg]; exact ⟨nofun, fun _ => BitVec.extractLsb'_append_eq_right, nofun, nofun⟩
  | g1 => rw [decSymbolEffect_of_g1 hg]; exact ⟨nofun, nofun, fun _ => BitVec.extractLsb'_append_eq_right, nofun⟩
  | g2 => rw [decSymbolEffect_of_g2 hg]; exact ⟨nofun, nofun, nofun, fun _ => BitVec.extractLsb'_append_eq_right⟩
  | g3 => rw [decSymbolEffect_of_g3 hg]; exact ⟨fun _ => h3 hg, nofun, nofun, nofun⟩

theorem decFeedEffect_nextOk (b : Byte) {u : DecUnit} (h : DecUnit.NextOk u) : DecUnit.NextOk (decFeedEffect b u) := by
  cases hb : symbolOf b with
  | none => rwa [decFeedEffect_of_ignored hb]
  | some d => rw [decFeedEffect_of_symbol hb]; exact decSymbolEffect_nextOk d h

/-- An accepted command's emission fits the queue (R46): the free entries were at least the largest emit. -/
theorem encEffectOf_queueOk (i : Instr) {u : EncUnit} {depth : Nat} (hfree : encMaxEmit ≤ depth - u.outq.length) :
    (encEffectOf i u).QueueOk depth := by
  have hlen := encEffectOf_length_le i u
  have hemit : encMaxEmit = 3 := rfl
  unfold UnitRegs.QueueOk
  omega

/-- An accepted command's emission fits the queue (R46). -/
theorem decEffectOf_queueOk (i : Instr) {u : DecUnit} {depth : Nat} (hfree : decMaxEmit ≤ depth - u.outq.length) :
    (decEffectOf i u).QueueOk depth := by
  have hlen := decEffectOf_length_le i u
  have hemit : decMaxEmit = 1 := rfl
  unfold UnitRegs.QueueOk
  omega

/-- R25 in RUN: no error is shown. -/
theorem UnitRegs.ErrcOk.noError_of_run {G : Type} {w : Nat} {u : UnitRegs G w} (h : u.ErrcOk)
    (hphase : u.phase = .run) : u.errc = .noError := by
  by_contra hne
  exact Phase.noConfusion (hphase.symm.trans (h.1 hne))

theorem UnitRegs.errcOk_of_noError {G : Type} {w : Nat} {u : UnitRegs G w} (herrc : u.errc = .noError)
    (hphase : u.phase ≠ .fault) : u.ErrcOk :=
  ⟨fun h => absurd herrc h, fun h => absurd h hphase⟩

/-- A command accepted in RUN keeps the encoder's invariant. -/
theorem encEffectOf_sound {i : Instr} {u : EncUnit} {depth : Nat} (hunit : i.unit = .enc) (hphase : u.phase = .run)
    (hfree : encMaxEmit ≤ depth - u.outq.length) (h : EncUnit.Sound u depth) :
    EncUnit.Sound (encEffectOf i u) depth := by
  obtain ⟨herrc, -, hnext, -⟩ := h
  have hqueue := encEffectOf_queueOk i hfree
  have hno := herrc.noError_of_run hphase
  obtain ⟨c, rfl⟩ | ⟨_, rfl⟩ | ⟨_, rfl | rfl⟩ := Instr.of_unit_enc hunit
  · obtain ⟨hp, he⟩ := encFeedEffect_frame c u
    have hrun : (encFeedEffect c u).phase = .run := hp.trans hphase
    refine ⟨?errc, hqueue, encFeedEffect_nextOk c hnext, ?done⟩
    case errc => exact UnitRegs.errcOk_of_noError (he.trans hno) fun hf => nomatch hrun.symm.trans hf
    case done => exact fun hd => nomatch hrun.symm.trans hd
  · exact ⟨UnitRegs.errcOk_of_noError ((encFinishEffect_errc u).trans hno) nofun, hqueue,
      ⟨fun _ => rfl, nofun, nofun⟩, fun _ => ⟨rfl, rfl⟩⟩
  · exact ⟨⟨fun _ => rfl, nofun⟩, hqueue, hnext, nofun⟩
  · exact ⟨⟨fun _ => rfl, nofun⟩, hqueue, hnext, nofun⟩

/-- A command accepted in RUN keeps the decoder's invariant. -/
theorem decEffectOf_sound {i : Instr} {u : DecUnit} {depth : Nat} (hunit : i.unit = .dec) (hphase : u.phase = .run)
    (hfree : decMaxEmit ≤ depth - u.outq.length) (h : DecUnit.Sound u depth) :
    DecUnit.Sound (decEffectOf i u) depth := by
  obtain ⟨herrc, -, hnext, -⟩ := h
  have hqueue := decEffectOf_queueOk i hfree
  have hno := herrc.noError_of_run hphase
  obtain ⟨b, rfl⟩ | ⟨_, rfl⟩ | ⟨_, rfl | rfl⟩ := Instr.of_unit_dec hunit
  · obtain ⟨hp, he⟩ := decFeedEffect_frame b u
    have hrun : (decFeedEffect b u).phase = .run := hp.trans hphase
    refine ⟨?errc, hqueue, decFeedEffect_nextOk b hnext, ?done⟩
    case errc => exact UnitRegs.errcOk_of_noError (he.trans hno) fun hf => nomatch hrun.symm.trans hf
    case done => exact fun hd => nomatch hrun.symm.trans hd
  · exact ⟨UnitRegs.errcOk_of_noError hno nofun, hqueue, ⟨fun _ => rfl, nofun, nofun, nofun⟩, fun _ => ⟨rfl, rfl⟩⟩
  · exact ⟨⟨fun _ => rfl, nofun⟩, hqueue, hnext, nofun⟩
  · exact ⟨⟨fun _ => rfl, nofun⟩, hqueue, hnext, nofun⟩

theorem UnitRegs.QueueOk.dropHead {G : Type} {w depth : Nat} {u : UnitRegs G w} (h : u.QueueOk depth) :
    u.dropHead.QueueOk depth :=
  u.outq.tail_sublist.length_le.trans h

/-- The registers after reset meet the encoder's invariant, for every depth. -/
theorem EncUnit.reset_sound (depth : Nat) : EncUnit.Sound EncUnit.reset depth :=
  ⟨by decide, Nat.zero_le _, by decide, by decide⟩

/-- The registers after reset meet the decoder's invariant, for every depth. -/
theorem DecUnit.reset_sound (depth : Nat) : DecUnit.Sound DecUnit.reset depth :=
  ⟨by decide, Nat.zero_le _, by decide, by decide⟩

/-- Every edge keeps the encoder's invariant: a reset and an accepted command by the lemmas above, a pop because it
shortens the queue and writes no register. -/
theorem encKind_edge_sound (depth : Nat) (e : Option Pins) {x : UnitRun EncGroup 6}
    (h : EncUnit.Sound x.regs depth) : EncUnit.Sound ((encKind depth).edge e x).regs depth :=
  (encKind depth).edge_keeps (P := fun _ y => EncUnit.Sound y.regs depth) (h := .start)
    (EncUnit.reset_sound depth)
    (fun _ _ _ hunit hphase hfree hsound => encEffectOf_sound hunit hphase hfree hsound)
    (fun _ _ ⟨herrc, hqueue, hnext, hdone⟩ => ⟨herrc, hqueue.dropHead, hnext, hdone⟩) e h

/-- Every edge keeps the decoder's invariant. -/
theorem decKind_edge_sound (depth : Nat) (e : Option Pins) {x : UnitRun DecGroup 8}
    (h : DecUnit.Sound x.regs depth) : DecUnit.Sound ((decKind depth).edge e x).regs depth :=
  (decKind depth).edge_keeps (P := fun _ y => DecUnit.Sound y.regs depth) (h := .start)
    (DecUnit.reset_sound depth)
    (fun _ _ _ hunit hphase hfree hsound => decEffectOf_sound hunit hphase hfree hsound)
    (fun _ _ ⟨herrc, hqueue, hnext, hdone⟩ => ⟨herrc, hqueue.dropHead, hnext, hdone⟩) e h

/-! ### The statements -/

/-- Settles O41: each unit's invariant is kept by its edge, and the depths are not written. -/
theorem stepKeepsInvariant : Obligations.StepKeepsInvariant := by
  unfold Obligations.StepKeepsInvariant
  rintro s t ⟨hwf, henc, hdec⟩ hstep
  obtain ⟨hcfg, -, -⟩ := step_frame hstep
  have henc' : t.enc = _ := congrArg UnitRun.regs (step_encRun hstep)
  have hdec' : t.dec = _ := congrArg UnitRun.regs (step_decRun hstep)
  rw [State.Inv, hcfg, henc', hdec']
  exact ⟨hwf, encKind_edge_sound _ _ henc, decKind_edge_sound _ _ hdec⟩

/-- Settles O40: both units hold the registers after reset, and the reference depths are legal. -/
theorem resetMeetsInvariant : Obligations.ResetMeetsInvariant := by
  unfold Obligations.ResetMeetsInvariant
  exact ⟨by decide, EncUnit.reset_sound _, DecUnit.reset_sound _⟩

/-- Settles O42: every command and every edge answers a next state (`step_eq`). -/
theorem stepAlwaysAnswersNext : Obligations.StepAlwaysAnswersNext := by
  unfold Obligations.StepAlwaysAnswersNext
  intro s
  obtain ⟨t, hstep⟩ := exists_step s
  obtain ⟨hcfg, hticks, -⟩ := step_frame hstep
  exact ⟨t, hstep, hcfg, hticks⟩

end Sys2Proof.Machine
end

section
/-! SUPPORT. What an edge does to a unit's registers and output, the phase a command leads to, and the statements about
phases, frames and the encoder's alphabet (10_state.md R24, 60_exceptions.md R110, R111, 40_encoder.md R86). -/

namespace Sys2Proof.Machine

section UnitMachine

variable {G : Type} {w : Nat} (K : UnitKind G w)

/-- Without a reset the registers after an edge are those of the accepted command, and so is the output: the pop
writes no register and loses no byte. -/
theorem UnitKind.edge_registers {e : Option Pins} (he : resets e = false) (x : UnitRun G w) :
    let u := K.commanded (K.accepted e x.regs) x.regs
    (K.edge e x).regs.gstate = u.gstate ∧ (K.edge e x).regs.next = u.next ∧ (K.edge e x).regs.phase = u.phase ∧
      (K.edge e x).regs.errc = u.errc ∧ (K.edge e x).output = x.stream ++ u.outq := by
  obtain heq | ⟨-, heq⟩ := K.edge_cases he x
  · rw [heq]; exact ⟨rfl, rfl, rfl, rfl, rfl⟩
  · rw [heq, UnitRun.pop_output]; exact ⟨rfl, rfl, rfl, rfl, rfl⟩

/-- A unit in DONE or FAULT accepts nothing (R62). -/
theorem UnitKind.accepted_of_not_run {u : UnitRegs G w} (hphase : u.phase ≠ .run) (e : Option Pins) :
    K.accepted e u = none := by
  rw [Option.eq_none_iff_forall_ne_some]
  intro i hi
  obtain ⟨-, hrun, -⟩ := K.of_accepted hi
  exact hphase hrun

/-- In DONE and FAULT an edge without reset keeps the registers and the output (R109, R111). -/
theorem UnitKind.edge_of_not_run {e : Option Pins} {x : UnitRun G w} (he : resets e = false)
    (hphase : x.regs.phase ≠ .run) :
    (K.edge e x).regs.gstate = x.regs.gstate ∧ (K.edge e x).regs.next = x.regs.next ∧
      (K.edge e x).regs.phase = x.regs.phase ∧ (K.edge e x).regs.errc = x.regs.errc ∧
      (K.edge e x).output = x.output := by
  have h := K.edge_registers he x
  rwa [K.accepted_of_not_run hphase] at h

/-- A phase other than RUN that a unit is in after an edge is the one it was in, or the one an accepted command led to
(R24). -/
theorem UnitKind.phase_of_edge (hstart : K.start.phase = .run) (e : Option Pins) (x : UnitRun G w)
    (hphase : (K.edge e x).regs.phase ≠ .run) :
    x.regs.phase = (K.edge e x).regs.phase ∨
      ∃ i, K.accepted e x.regs = some i ∧ x.regs.phase = .run ∧
        (K.effect i x.regs).phase = (K.edge e x).regs.phase := by
  cases he : resets e with
  | true => exact absurd (by rw [K.edge_of_resets he]; exact hstart) hphase
  | false =>
    obtain ⟨-, -, hcmd, -, -⟩ := K.edge_registers he x
    rw [hcmd]
    cases ha : K.accepted e x.regs with
    | none => exact .inl rfl
    | some i =>
      obtain ⟨-, hrun, -⟩ := K.of_accepted ha
      exact .inr ⟨i, rfl, hrun, rfl⟩

end UnitMachine

/-! ### Phases -/

/-- The phase a command of the encoder leads to (R24). -/
theorem encEffectOf_phase {i : Instr} (hunit : i.unit = .enc) (u : EncUnit) :
    (∃ c, i = .encFeed c ∧ (encEffectOf i u).phase = u.phase) ∨
    (∃ b, i = .encFinish b ∧ (encEffectOf i u).phase = .done) ∨
    (∃ b, (i = .encRsvd00 b ∨ i = .encRsvd11 b) ∧ (encEffectOf i u).phase = .fault) := by
  obtain ⟨c, rfl⟩ | ⟨b, rfl⟩ | ⟨b, rfl | rfl⟩ := Instr.of_unit_enc hunit
  · exact .inl ⟨c, rfl, (encFeedEffect_frame c u).1⟩
  · exact .inr (.inl ⟨b, rfl, rfl⟩)
  · exact .inr (.inr ⟨b, .inl rfl, rfl⟩)
  · exact .inr (.inr ⟨b, .inr rfl, rfl⟩)

/-- The phase a command of the decoder leads to (R24). -/
theorem decEffectOf_phase {i : Instr} (hunit : i.unit = .dec) (u : DecUnit) :
    (∃ b, i = .decFeed b ∧ (decEffectOf i u).phase = u.phase) ∨
    (∃ b, i = .decFinish b ∧ (decEffectOf i u).phase = .done) ∨
    (∃ b, (i = .decRsvd00 b ∨ i = .decRsvd11 b) ∧ (decEffectOf i u).phase = .fault) := by
  obtain ⟨b, rfl⟩ | ⟨b, rfl⟩ | ⟨b, rfl | rfl⟩ := Instr.of_unit_dec hunit
  · exact .inl ⟨b, rfl, (decFeedEffect_frame b u).1⟩
  · exact .inr (.inl ⟨b, rfl, rfl⟩)
  · exact .inr (.inr ⟨b, .inl rfl, rfl⟩)
  · exact .inr (.inr ⟨b, .inr rfl, rfl⟩)

theorem State.encAccepts_unit {s : State} {i : Instr} (h : s.encAccepts = some i) : i.unit = .enc :=
  ((encKind s.cfg.encDepth).of_accepted h).1

theorem State.decAccepts_unit {s : State} {i : Instr} (h : s.decAccepts = some i) : i.unit = .dec :=
  ((decKind s.cfg.decDepth).of_accepted h).1

/-- A phase other than RUN after a step is the encoder's phase before it, or DONE after an accepted FINISH, or FAULT
after an accepted reserved command (R24). -/
theorem encPhase_of_step {s t : State} (hstep : step s = .next t) (hphase : t.enc.phase ≠ .run) :
    s.enc.phase = t.enc.phase ∨ (t.enc.phase = .done ∧ ∃ b, s.encAccepts = some (.encFinish b)) ∨
      (t.enc.phase = .fault ∧ ∃ b, s.encAccepts = some (.encRsvd00 b) ∨ s.encAccepts = some (.encRsvd11 b)) := by
  have hregs : t.enc = _ := congrArg UnitRun.regs (step_encRun hstep)
  rw [hregs] at hphase ⊢
  obtain hsame | ⟨i, hacc, hrun, heff⟩ :=
    (encKind s.cfg.encDepth).phase_of_edge rfl s.encPins s.encRun hphase
  · exact .inl hsame
  · obtain ⟨c, rfl, hp⟩ | ⟨b, rfl, hp⟩ | ⟨b, rfl | rfl, hp⟩ :=
      encEffectOf_phase (State.encAccepts_unit hacc) s.enc
    · exact absurd (heff.symm.trans (hp.trans hrun)) hphase
    · exact .inr (.inl ⟨heff.symm.trans hp, b, hacc⟩)
    · exact .inr (.inr ⟨heff.symm.trans hp, b, .inl hacc⟩)
    · exact .inr (.inr ⟨heff.symm.trans hp, b, .inr hacc⟩)

/-- A phase other than RUN after a step is the decoder's phase before it, or DONE after an accepted FINISH, or FAULT
after an accepted reserved command (R24). -/
theorem decPhase_of_step {s t : State} (hstep : step s = .next t) (hphase : t.dec.phase ≠ .run) :
    s.dec.phase = t.dec.phase ∨ (t.dec.phase = .done ∧ ∃ b, s.decAccepts = some (.decFinish b)) ∨
      (t.dec.phase = .fault ∧ ∃ b, s.decAccepts = some (.decRsvd00 b) ∨ s.decAccepts = some (.decRsvd11 b)) := by
  have hregs : t.dec = _ := congrArg UnitRun.regs (step_decRun hstep)
  rw [hregs] at hphase ⊢
  obtain hsame | ⟨i, hacc, hrun, heff⟩ :=
    (decKind s.cfg.decDepth).phase_of_edge rfl s.decPins s.decRun hphase
  · exact .inl hsame
  · obtain ⟨c, rfl, hp⟩ | ⟨b, rfl, hp⟩ | ⟨b, rfl | rfl, hp⟩ :=
      decEffectOf_phase (State.decAccepts_unit hacc) s.dec
    · exact absurd (heff.symm.trans (hp.trans hrun)) hphase
    · exact .inr (.inl ⟨heff.symm.trans hp, b, hacc⟩)
    · exact .inr (.inr ⟨heff.symm.trans hp, b, .inl hacc⟩)
    · exact .inr (.inr ⟨heff.symm.trans hp, b, .inr hacc⟩)

/-- Outside RUN an edge resets the unit or keeps its registers (R110, R111). -/
theorem UnitKind.edge_leaves_end {G : Type} {w : Nat} (K : UnitKind G w) (e : Option Pins) {x : UnitRun G w}
    (hphase : x.regs.phase ≠ .run) :
    resets e = true ∧ (K.edge e x).regs = K.start ∨
      resets e = false ∧ (K.edge e x).regs.gstate = x.regs.gstate ∧ (K.edge e x).regs.next = x.regs.next ∧
        (K.edge e x).regs.phase = x.regs.phase ∧ (K.edge e x).regs.errc = x.regs.errc := by
  cases he : resets e with
  | true => exact .inl ⟨rfl, by rw [K.edge_of_resets he]⟩
  | false =>
    obtain ⟨hgstate, hnext, hkept, herrc, -⟩ := K.edge_of_not_run he hphase
    exact .inr ⟨rfl, hgstate, hnext, hkept, herrc⟩

/-- Settles O43: the phase a step leads to is that of the command accepted; outside RUN none is. -/
theorem phaseTransitions : Obligations.PhaseTransitions := by
  unfold Obligations.PhaseTransitions
  refine ⟨fun s t hstep => ⟨fun hdone => ?encDone, fun hfault => ?encFault, fun hphase => ?encEnd⟩,
    fun s t hstep => ⟨fun hdone => ?decDone, fun hfault => ?decFault, fun hphase => ?decEnd⟩⟩
  case encDone =>
    obtain hsame | ⟨-, hfinish⟩ | ⟨hfault, -⟩ := encPhase_of_step hstep (by simp [hdone])
    · exact .inl (hsame.trans hdone)
    · exact .inr hfinish
    · exact nomatch hdone.symm.trans hfault
  case encFault =>
    obtain hsame | ⟨hdone, -⟩ | ⟨-, hrsvd⟩ := encPhase_of_step hstep (by simp [hfault])
    · exact .inl (hsame.trans hfault)
    · exact nomatch hdone.symm.trans hfault
    · exact .inr hrsvd
  case encEnd =>
    have hregs : t.enc = _ := congrArg UnitRun.regs (step_encRun hstep)
    rw [hregs]
    exact (encKind s.cfg.encDepth).edge_leaves_end s.encPins (x := s.encRun) hphase
  case decDone =>
    obtain hsame | ⟨-, hfinish⟩ | ⟨hfault, -⟩ := decPhase_of_step hstep (by simp [hdone])
    · exact .inl (hsame.trans hdone)
    · exact .inr hfinish
    · exact nomatch hdone.symm.trans hfault
  case decFault =>
    obtain hsame | ⟨hdone, -⟩ | ⟨-, hrsvd⟩ := decPhase_of_step hstep (by simp [hfault])
    · exact .inl (hsame.trans hfault)
    · exact nomatch hdone.symm.trans hfault
    · exact .inr hrsvd
  case decEnd =>
    have hregs : t.dec = _ := congrArg UnitRun.regs (step_decRun hstep)
    rw [hregs]
    exact (decKind s.cfg.decDepth).edge_leaves_end s.decPins (x := s.decRun) hphase

/-! ### Frames -/

/-- The encoder after one of its commands: the effect, or as it was (R68). -/
theorem enc_of_exec {i : Instr} {s t : State} (hunit : i.unit = .enc) (h : exec i s = .next t) :
    t.enc = encEffectOf i s.enc ∨ t.enc = s.enc := by
  obtain ⟨-, -, rfl⟩ | ⟨hdec, -, -⟩ | rfl := exec_next_cases h
  · exact .inl rfl
  · exact nomatch hunit.symm.trans hdec
  · exact .inr rfl

/-- The decoder after one of its commands: the effect, or as it was (R68). -/
theorem dec_of_exec {i : Instr} {s t : State} (hunit : i.unit = .dec) (h : exec i s = .next t) :
    t.dec = decEffectOf i s.dec ∨ t.dec = s.dec := by
  obtain ⟨henc, -, -⟩ | ⟨-, -, rfl⟩ | rfl := exec_next_cases h
  · exact nomatch hunit.symm.trans henc
  · exact .inl rfl
  · exact .inr rfl

/-- A command appends encoder characters to the encoder's queue, or nothing (R86). -/
theorem exec_enc_appends {i : Instr} {s t : State} (h : exec i s = .next t) :
    ∃ e, t.enc.outq = s.enc.outq ++ e ∧ ∀ b ∈ e, encoderChar b := by
  obtain ⟨-, -, rfl⟩ | ⟨-, -, rfl⟩ | rfl := exec_next_cases h
  · obtain ⟨e, happend, -, hchars⟩ := encEffectOf_emits i s.enc
    exact ⟨e, happend, hchars⟩
  · exact ⟨[], by simp, by simp⟩
  · exact ⟨[], by simp, by simp⟩

theorem exec_dec_appends {i : Instr} {s t : State} (h : exec i s = .next t) :
    ∃ e, t.dec.outq = s.dec.outq ++ e := by
  obtain ⟨-, -, rfl⟩ | ⟨-, -, rfl⟩ | rfl := exec_next_cases h
  · exact ⟨[], by simp⟩
  · obtain ⟨e, happend, -⟩ := decEffectOf_emits i s.dec
    exact ⟨e, happend⟩
  · exact ⟨[], by simp⟩

/-- A command changes its own unit alone (R56). -/
theorem exec_frame {i : Instr} {s t : State} (h : exec i s = .next t) :
    t.cfg = s.cfg ∧ t.env = s.env ∧ (i.unit = .enc → t.dec = s.dec) ∧ (i.unit = .dec → t.enc = s.enc) := by
  obtain ⟨hu, -, rfl⟩ | ⟨hu, -, rfl⟩ | rfl := exec_next_cases h
  · exact ⟨rfl, rfl, fun _ => rfl, fun hd => nomatch hu.symm.trans hd⟩
  · exact ⟨rfl, rfl, fun he => (nomatch hu.symm.trans he), fun _ => rfl⟩
  · exact ⟨rfl, rfl, fun _ => rfl, fun _ => rfl⟩

/-- Settles O24: the frame of all commands is `exec_frame`'s, that of each kind is its effect's. -/
theorem commandFrames : Obligations.CommandFrames := by
  unfold Obligations.CommandFrames
  refine ⟨fun i s t h => ?all, fun c s t h => ?encFeed, fun b s t h => ?decFeed, fun c s t h => ?encFinish,
    fun c s t h => ?decFinish, fun c s t h => ?encRsvd, fun c s t h => ?decRsvd⟩
  case all =>
    obtain ⟨hcfg, henv, hdec, henc⟩ := exec_frame h
    obtain ⟨e, happend, -⟩ := exec_enc_appends h
    exact ⟨hcfg, henv, hdec, henc, ⟨e, happend⟩, exec_dec_appends h⟩
  case encFeed =>
    obtain ht | ht := enc_of_exec rfl h
    · rw [ht]; exact encFeedEffect_frame c s.enc
    · rw [ht]; exact ⟨rfl, rfl⟩
  case decFeed =>
    obtain ht | ht := dec_of_exec rfl h
    · rw [ht]; exact decFeedEffect_frame b s.dec
    · rw [ht]; exact ⟨rfl, rfl⟩
  case encFinish =>
    obtain ht | ht := enc_of_exec rfl h
    · rw [ht]; exact encFinishEffect_errc s.enc
    · rw [ht]
  case decFinish =>
    obtain ht | ht := dec_of_exec rfl h <;> rw [ht] <;> exact ⟨rfl, rfl⟩
  case encRsvd =>
    obtain h | h := h <;> obtain ht | ht := enc_of_exec rfl h <;> rw [ht] <;> exact ⟨rfl, rfl, rfl⟩
  case decRsvd =>
    obtain h | h := h <;> obtain ht | ht := dec_of_exec rfl h <;> rw [ht] <;> exact ⟨rfl, rfl, rfl⟩

/-! ### The encoder's alphabet -/

/-- Settles O44: the bytes are those of `encEffectOf_emits`, and neither line break is in the alphabet. -/
theorem encoderAlphabetClosure : Obligations.EncoderAlphabetClosure := by
  unfold Obligations.EncoderAlphabetClosure
  exact ⟨fun _ _ _ => exec_enc_appends, by decide, by decide⟩

/-- Settles O45: a reset empties the output, a command appends encoder characters, and a pop keeps the output. -/
theorem stepKeepsAlphabetClosure : Obligations.StepKeepsAlphabetClosure := by
  unfold Obligations.StepKeepsAlphabetClosure
  intro s t hs hstep
  have hout : t.encOutput = _ := congrArg UnitRun.output (step_encRun hstep)
  rw [hout]
  refine (encKind s.cfg.encDepth).edge_keeps (P := fun _ x => ∀ b ∈ x.output, encoderChar b) (h := .start)
    ?reset ?command ?pop s.encPins (x := s.encRun) hs
  case reset => exact fun b hb => nomatch hb
  case command =>
    intro _ x i _ _ _ hx b hb
    obtain ⟨e, happend, -, hchars⟩ := encEffectOf_emits i x.regs
    change b ∈ x.stream ++ (encEffectOf i x.regs).outq at hb
    rw [happend, ← List.append_assoc, List.mem_append] at hb
    exact hb.elim (hx b) (hchars b)
  case pop =>
    intro _ x hx
    rwa [UnitRun.pop_output]

end Sys2Proof.Machine
end

section
/-! SUPPORT. Runs of one unit in which it is idle, has ended or is drained, runs of two units that differ in a stale
NEXT, and the statements about them (60_exceptions.md R109, R111, R119, 70_reset_and_hazards.md R128, 10_state.md R19,
R23). -/

namespace Sys2Proof.Machine

section UnitMachine

variable {G : Type} {w : Nat} (K : UnitKind G w)

/-! ### Idle units -/

/-- An edge without reset and command, and without a byte taken that is there (R119). -/
def UnitRegs.IdleAt (u : UnitRegs G w) (e : Option Pins) : Prop :=
  ∀ p, e = some p → p.rst = false ∧ p.cmdValid = false ∧ (p.outReady = false ∨ u.outq = [])

theorem UnitKind.edge_of_idle {e : Option Pins} {x : UnitRun G w} (h : x.regs.IdleAt e) : K.edge e x = x := by
  cases e with
  | none => exact K.edge_none x
  | some p =>
    obtain ⟨hrst, hvalid, hpop⟩ := h p rfl
    have hacc : K.accepted (some p) x.regs = none := by simp [accepted, accepts, hvalid]
    have hnopop : (x.regs.hasByte && p.outReady) = false := by
      obtain hready | hempty := hpop
      · simp [hready]
      · simp [UnitRegs.hasByte, hempty]
    simp [edge, resets, takes, hrst, hacc, hnopop, commanded]

theorem UnitKind.run_of_idle {es : List (Option Pins)} {x : UnitRun G w} (h : ∀ e ∈ es, x.regs.IdleAt e) :
    K.run es x = x := by
  induction es with
  | nil => rfl
  | cons e es ih =>
    obtain ⟨he, hes⟩ := List.forall_mem_cons.mp h
    rw [K.run_cons, K.edge_of_idle he, ih hes]

/-! ### The end of a run -/

/-- In DONE and FAULT the output and the registers stay, until a reset (R109, R111). -/
theorem UnitKind.run_of_not_run {es : List (Option Pins)} {x : UnitRun G w} (hphase : x.regs.phase ≠ .run)
    (hes : ∀ e ∈ es, resets e = false) :
    (K.run es x).output = x.output ∧ (K.run es x).regs.phase = x.regs.phase ∧
      (K.run es x).regs.errc = x.regs.errc ∧ (K.run es x).regs.gstate = x.regs.gstate ∧
      (K.run es x).regs.next = x.regs.next := by
  induction es generalizing x with
  | nil => exact ⟨rfl, rfl, rfl, rfl, rfl⟩
  | cons e es ih =>
    obtain ⟨he, hrest⟩ := List.forall_mem_cons.mp hes
    obtain ⟨hgstate, hnext, hkept, herrc, houtput⟩ := K.edge_of_not_run he hphase
    obtain ⟨ihout, ihphase, iherrc, ihgstate, ihnext⟩ := ih (x := K.edge e x) (by rwa [hkept]) hrest
    exact ⟨ihout.trans houtput, ihphase.trans hkept, iherrc.trans herrc, ihgstate.trans hgstate, ihnext.trans hnext⟩

/-! ### Draining the queue -/

/-- An edge at which the host takes a byte is a pop; on an empty queue a pop does nothing (R64). -/
theorem UnitKind.edge_popPins (x : UnitRun G w) : K.edge (some popPins) x = x.pop := by
  have hedge : K.edge (some popPins) x = if x.regs.hasByte && true then x.pop else x := rfl
  cases hb : x.regs.hasByte with
  | true => simp [hedge, hb]
  | false =>
    have hempty : x.regs.outq = [] := by simpa [hb] using x.regs.hasByte_iff
    have hpop : x.pop = x := by
      unfold UnitRun.pop UnitRegs.dropHead
      rw [hempty, List.take_nil, List.append_nil, List.tail_nil, ← hempty]
    simp [hedge, hb, hpop]

/-- As many pops as there are bytes deliver the queue in order (R128); further ones do nothing. -/
theorem UnitKind.run_popPins {n : Nat} {x : UnitRun G w} (hlen : x.regs.outq.length ≤ n) :
    K.run (List.replicate n (some popPins)) x = ⟨{ x.regs with outq := [] }, x.stream ++ x.regs.outq⟩ := by
  induction n generalizing x with
  | zero =>
    have hempty : x.regs.outq = [] := List.eq_nil_of_length_eq_zero (Nat.le_zero.mp hlen)
    rw [hempty, List.append_nil, ← hempty]
    rfl
  | succ n ih =>
    have hpoplen : x.pop.regs.outq.length ≤ n := by
      rw [UnitRun.pop_regs, UnitRegs.dropHead_outq, List.length_tail]
      omega
    calc K.run (List.replicate (n + 1) (some popPins)) x
      _ = K.run (List.replicate n (some popPins)) x.pop := by rw [List.replicate_succ, K.run_cons, K.edge_popPins]
      _ = ⟨{ x.regs with outq := [] }, x.pop.output⟩ := ih hpoplen
      _ = ⟨{ x.regs with outq := [] }, x.output⟩ := by rw [UnitRun.pop_output]

/-! ### A stale accumulator -/

/-- The registers are the same, or differ in NEXT alone and are in the group state in which NEXT is stale (R19, R23). -/
def UnitRegs.Alike (g0 : G) (u v : UnitRegs G w) : Prop :=
  v = u ∨ u.gstate = g0 ∧ ∃ n, v = { u with next := n }

theorem UnitRegs.Alike.dropHead {g0 : G} {u v : UnitRegs G w} (h : Alike g0 u v) : Alike g0 u.dropHead v.dropHead := by
  obtain rfl | ⟨hg, n, rfl⟩ := h
  · exact .inl rfl
  · exact .inr ⟨hg, n, rfl⟩

/-- Everything but NEXT is the same. -/
theorem UnitRegs.Alike.fields {g0 : G} {u v : UnitRegs G w} (h : Alike g0 u v) :
    v.gstate = u.gstate ∧ v.phase = u.phase ∧ v.errc = u.errc ∧ v.outq = u.outq := by
  obtain rfl | ⟨-, n, rfl⟩ := h
  · exact ⟨rfl, rfl, rfl, rfl⟩
  · exact ⟨rfl, rfl, rfl, rfl⟩

/-- Neither readiness nor the status word reads NEXT. -/
theorem UnitRegs.Alike.ports {g0 : G} {u v : UnitRegs G w} (h : Alike g0 u v) :
    (∀ depth m, v.accepting depth m = u.accepting depth m) ∧ v.hasByte = u.hasByte ∧
      ∀ gbits, v.status gbits = u.status gbits := by
  obtain rfl | ⟨-, n, rfl⟩ := h
  · exact ⟨fun _ _ => rfl, rfl, fun _ => rfl⟩
  · exact ⟨fun _ _ => rfl, rfl, fun _ => rfl⟩

/-- Two runs that show the host the same. -/
def UnitRun.Alike (g0 : G) (x y : UnitRun G w) : Prop := x.regs.Alike g0 y.regs ∧ y.stream = x.stream

theorem UnitRun.Alike.pop {g0 : G} {x y : UnitRun G w} (h : Alike g0 x y) : Alike g0 x.pop y.pop := by
  obtain ⟨hregs, hstream⟩ := h
  obtain ⟨-, -, -, houtq⟩ := hregs.fields
  exact ⟨hregs.dropHead, by rw [UnitRun.pop_stream, UnitRun.pop_stream, hstream, houtq]⟩

variable {K}

/-- An edge keeps two runs alike if the commands' effects do. -/
theorem UnitKind.edge_alike {g0 : G} (heffect : ∀ i u v, i.unit = K.unit → UnitRegs.Alike g0 u v →
    UnitRegs.Alike g0 (K.effect i u) (K.effect i v)) (e : Option Pins) {x y : UnitRun G w} (h : x.Alike g0 y) :
    (K.edge e x).Alike g0 (K.edge e y) := by
  obtain ⟨hregs, hstream⟩ := h
  obtain ⟨haccepting, hbyte, -⟩ := hregs.ports
  have hacc : K.accepted e y.regs = K.accepted e x.regs := by rw [accepted, accepted, haccepting]
  have hcmd : UnitRun.Alike g0 ⟨K.commanded (K.accepted e x.regs) x.regs, x.stream⟩
      ⟨K.commanded (K.accepted e x.regs) y.regs, y.stream⟩ := by
    cases ha : K.accepted e x.regs with
    | none => exact ⟨hregs, hstream⟩
    | some i =>
      obtain ⟨hunit, -, -⟩ := K.of_accepted ha
      exact ⟨heffect i _ _ hunit hregs, hstream⟩
  simp only [edge, hacc, hbyte]
  split_ifs
  · exact ⟨.inl rfl, rfl⟩
  · exact hcmd.pop
  · exact hcmd

theorem UnitKind.run_alike {g0 : G} (heffect : ∀ i u v, i.unit = K.unit → UnitRegs.Alike g0 u v →
    UnitRegs.Alike g0 (K.effect i u) (K.effect i v)) (es : List (Option Pins)) {x y : UnitRun G w}
    (h : x.Alike g0 y) : (K.run es x).Alike g0 (K.run es y) := by
  induction es generalizing x y with
  | nil => exact h
  | cons e es ih => exact ih (K.edge_alike heffect e h)

end UnitMachine

/-- The effect of FINISH in state 0 (R80, R81): it does not read NEXT. -/
theorem encFinishEffect_of_g0 {u : EncUnit} (hg : u.gstate = .g0) :
    encFinishEffect u = { u with gstate := .g0, next := 0#6, phase := .done } := by
  simp only [encFinishEffect, encFinishEmits, hg]
  rfl

/-- R77 writes NEXT in state 0 without reading it, and R80 and R81 clear it. -/
theorem encEffectOf_alike (i : Instr) (u v : EncUnit) (hunit : i.unit = .enc) (h : UnitRegs.Alike .g0 u v) :
    UnitRegs.Alike .g0 (encEffectOf i u) (encEffectOf i v) := by
  obtain rfl | ⟨hg, n, rfl⟩ := h
  · exact .inl rfl
  · obtain ⟨c, rfl⟩ | ⟨_, rfl⟩ | ⟨_, rfl | rfl⟩ := Instr.of_unit_enc hunit
    · exact .inl ((encFeedEffect_of_g0 (u := { u with next := n }) hg c).trans (encFeedEffect_of_g0 hg c).symm)
    · exact .inl ((encFinishEffect_of_g0 (u := { u with next := n }) hg).trans (encFinishEffect_of_g0 hg).symm)
    · exact .inr ⟨hg, n, rfl⟩
    · exact .inr ⟨hg, n, rfl⟩

theorem decFeedEffect_alike (b : Byte) {u : DecUnit} (hg : u.gstate = .g0) (n : Byte) :
    UnitRegs.Alike .g0 (decFeedEffect b u) (decFeedEffect b { u with next := n }) := by
  cases hb : symbolOf b with
  | none =>
    rw [decFeedEffect_of_ignored hb, decFeedEffect_of_ignored hb]
    exact .inr ⟨hg, n, rfl⟩
  | some d =>
    rw [decFeedEffect_of_symbol hb, decFeedEffect_of_symbol hb]
    exact .inl ((decSymbolEffect_of_g0 (u := { u with next := n }) hg d).trans (decSymbolEffect_of_g0 hg d).symm)

/-- R93 writes NEXT in state 0 without reading it, and R97 clears it. -/
theorem decEffectOf_alike (i : Instr) (u v : DecUnit) (hunit : i.unit = .dec) (h : UnitRegs.Alike .g0 u v) :
    UnitRegs.Alike .g0 (decEffectOf i u) (decEffectOf i v) := by
  obtain rfl | ⟨hg, n, rfl⟩ := h
  · exact .inl rfl
  · obtain ⟨b, rfl⟩ | ⟨_, rfl⟩ | ⟨_, rfl | rfl⟩ := Instr.of_unit_dec hunit
    · exact decFeedEffect_alike b hg n
    · exact .inl rfl
    · exact .inr ⟨hg, n, rfl⟩
    · exact .inr ⟨hg, n, rfl⟩

/-! ### The statements -/

/-- A property of a unit's pins at all events to come is one of those of a run. -/
theorem forall_mem_take_map {α β : Type} {f : α → β} {l : List α} {P : β → Prop} (h : ∀ a ∈ l, P (f a))
    (k : Nat) : ∀ b ∈ (l.map f).take k, P b := by
  intro b hb
  obtain ⟨a, ha, rfl⟩ := List.mem_map.mp (List.mem_of_mem_take hb)
  exact h a ha

/-- Settles O46: an idle edge changes nothing (`UnitKind.edge_of_idle`). -/
theorem idleUnitHoldsState : Obligations.IdleUnitHoldsState := by
  unfold Obligations.IdleUnitHoldsState
  constructor
  · intro k s t hidle hsteps
    have hrun : t.encRun = s.encRun :=
      (steps_encRun hsteps).trans (UnitKind.run_of_idle _ (forall_mem_take_map hidle k))
    exact ⟨congrArg UnitRun.regs hrun, congrArg UnitRun.stream hrun⟩
  · intro k s t hidle hsteps
    have hrun : t.decRun = s.decRun :=
      (steps_decRun hsteps).trans (UnitKind.run_of_idle _ (forall_mem_take_map hidle k))
    exact ⟨congrArg UnitRun.regs hrun, congrArg UnitRun.stream hrun⟩

/-- No pins of the unit at an event to come have `rst = 1`. -/
theorem resets_eq_false {e : Option Pins} (h : ∀ p, e = some p → p.rst = false) : resets e = false := by
  cases e with
  | none => rfl
  | some p => exact h p rfl

/-- Settles O47: outside RUN an edge without reset keeps the registers and the output. -/
theorem outputSurvivesEndOfRun : Obligations.OutputSurvivesEndOfRun := by
  unfold Obligations.OutputSurvivesEndOfRun
  constructor
  · intro k s t hphase hpins hsteps
    have hes := forall_mem_take_map (P := fun e => resets e = false)
      (fun e he => resets_eq_false (hpins e he)) k
    have hrun := (encKind s.cfg.encDepth).run_of_not_run (x := s.encRun) hphase hes
    rwa [← steps_encRun hsteps] at hrun
  · intro k s t hphase hpins hsteps
    have hes := forall_mem_take_map (P := fun e => resets e = false)
      (fun e he => resets_eq_false (hpins e he)) k
    have hrun := (decKind s.cfg.decDepth).run_of_not_run (x := s.decRun) hphase hes
    rwa [← steps_decRun hsteps] at hrun

/-- Settles O48: the run is the one of `UnitKind.run_popPins`, and a legal depth has room for the largest emit. -/
theorem drainDeliversQueue : Obligations.DrainDeliversQueue := by
  unfold Obligations.DrainDeliversQueue
  constructor
  · intro n s hticks hlen
    obtain ⟨t, hsteps⟩ := exists_steps n s
    have hrun := steps_encRun hsteps
    rw [hticks, List.map_replicate, List.take_replicate, Nat.min_self] at hrun
    replace hrun := hrun.trans (UnitKind.run_popPins _ (x := s.encRun) hlen)
    have hregs : t.enc = { s.enc with outq := [] } := congrArg UnitRun.regs hrun
    refine ⟨t, hsteps, congrArg UnitRun.stream hrun, hregs, fun hwf hphase => ?_⟩
    rw [t.encPorts_cmdReady, t.encReady_iff, hregs, (steps_frame hsteps).1]
    exact ⟨hphase, hwf.1⟩
  · intro n s hticks hlen
    obtain ⟨t, hsteps⟩ := exists_steps n s
    have hrun := steps_decRun hsteps
    rw [hticks, List.map_replicate, List.take_replicate, Nat.min_self] at hrun
    replace hrun := hrun.trans (UnitKind.run_popPins _ (x := s.decRun) hlen)
    have hregs : t.dec = { s.dec with outq := [] } := congrArg UnitRun.regs hrun
    refine ⟨t, hsteps, congrArg UnitRun.stream hrun, hregs, fun hwf hphase => ?_⟩
    rw [t.decPorts_cmdReady, t.decReady_iff, hregs, (steps_frame hsteps).1]
    exact ⟨hphase, hwf.2⟩

theorem Env.eq_of_fields {e e' : Env} (hticks : e.ticks = e'.ticks) (henc : e.encStream = e'.encStream)
    (hdec : e.decStream = e'.decStream) (hdraws : e.draws = e'.draws) : e = e' := by
  cases e; cases e'
  subst hticks henc hdec hdraws
  rfl

/-- Settles O50: the runs of the unit stay alike, and the other unit's run is the same. -/
theorem staleAccumulatorUnobservable : Obligations.StaleAccumulatorUnobservable := by
  unfold Obligations.StaleAccumulatorUnobservable
  constructor
  · intro k s t t' v hg hsteps hsteps'
    obtain ⟨hcfg, hticks, hdraws⟩ := steps_frame hsteps
    obtain ⟨hcfg', hticks', hdraws'⟩ := steps_frame hsteps'
    have hstart : s.encRun.Alike .g0 (State.encRun { s with enc := { s.enc with next := v } }) :=
      ⟨.inr ⟨hg, v, rfl⟩, rfl⟩
    have halike : t.encRun.Alike .g0 t'.encRun := by
      rw [steps_encRun hsteps, steps_encRun hsteps']
      exact UnitKind.run_alike encEffectOf_alike _ hstart
    have hdec : t'.decRun = t.decRun := (steps_decRun hsteps').trans (steps_decRun hsteps).symm
    obtain ⟨hregs, hstream⟩ := halike
    obtain ⟨-, -, -, houtq⟩ := hregs.fields
    obtain ⟨hready, -, hstatus⟩ := hregs.ports
    refine ⟨Env.eq_of_fields (hticks'.trans hticks.symm) hstream (congrArg UnitRun.stream hdec)
      (hdraws'.trans hdraws.symm), houtq, congrArg UnitRun.regs hdec, hstatus _, ?_⟩
    rw [t.encPorts_cmdReady, t'.encPorts_cmdReady, State.encReady, State.encReady, hcfg, hcfg']
    exact hready _ _
  · intro k s t t' v hg hsteps hsteps'
    obtain ⟨hcfg, hticks, hdraws⟩ := steps_frame hsteps
    obtain ⟨hcfg', hticks', hdraws'⟩ := steps_frame hsteps'
    have hstart : s.decRun.Alike .g0 (State.decRun { s with dec := { s.dec with next := v } }) :=
      ⟨.inr ⟨hg, v, rfl⟩, rfl⟩
    have halike : t.decRun.Alike .g0 t'.decRun := by
      rw [steps_decRun hsteps, steps_decRun hsteps']
      exact UnitKind.run_alike decEffectOf_alike _ hstart
    have henc : t'.encRun = t.encRun := (steps_encRun hsteps').trans (steps_encRun hsteps).symm
    obtain ⟨hregs, hstream⟩ := halike
    obtain ⟨-, -, -, houtq⟩ := hregs.fields
    obtain ⟨hready, -, hstatus⟩ := hregs.ports
    refine ⟨Env.eq_of_fields (hticks'.trans hticks.symm) (congrArg UnitRun.stream henc) hstream
      (hdraws'.trans hdraws.symm), houtq, congrArg UnitRun.regs henc, hstatus _, ?_⟩
    rw [t.decPorts_cmdReady, t'.decPorts_cmdReady, State.decReady, State.decReady, hcfg, hcfg']
    exact hready _ _

end Sys2Proof.Machine
end

section
/-! SUPPORT. The encoder's effect folded over a byte sequence is the base64 text of the sequence (20_memory.md R50,
40_encoder.md R84), and the text's length and padding. No clock occurs here. -/

namespace Sys2Proof.Reference

open Sys2Proof.Machine

/-- The encoder after FEED of a byte sequence (R76), whatever the queue depth. -/
def encFeeds (bs : List Byte) (u : EncUnit) : EncUnit := bs.foldl (fun v b => encFeedEffect b v) u

@[simp] theorem encFeeds_nil (u : EncUnit) : encFeeds [] u = u := rfl
@[simp] theorem encFeeds_cons (b : Byte) (bs : List Byte) (u : EncUnit) :
    encFeeds (b :: bs) u = encFeeds bs (encFeedEffect b u) := rfl

theorem encFeeds_append_singleton (bs : List Byte) (b : Byte) (u : EncUnit) :
    encFeeds (bs ++ [b]) u = encFeedEffect b (encFeeds bs u) := by
  simp [encFeeds]

/-- The three FEEDs of a whole group (R77 to R79) emit its four characters (R50) and lead back to state 0. -/
theorem encFeedEffect_group (b0 b1 b2 : Byte) {u : EncUnit} (hg : u.gstate = .g0) :
    let v := encFeedEffect b2 (encFeedEffect b1 (encFeedEffect b0 u))
    v.gstate = .g0 ∧ v.outq = u.outq ++ groupChars b0 b1 b2 := by
  simp [encFeedEffect, hg, groupChars, groupIndex0, groupIndex1, groupIndex2, groupIndex3]

theorem length_group_mod (b0 b1 b2 : Byte) (rest : List Byte) :
    (b0 :: b1 :: b2 :: rest).length % 3 = rest.length % 3 :=
  Nat.add_mod_right rest.length 3

/-- From group state 0 the FEEDs emit the part of the text that is complete, and GSTATE counts the bytes of the last
group (R15, R84). -/
theorem encFeeds_of_g0 (bs : List Byte) {u : EncUnit} (hg : u.gstate = .g0) :
    (encFeeds bs u).outq = u.outq ++ base64Open bs ∧
      (encFeeds bs u).gstate.bits = BitVec.ofNat 2 (bs.length % 3) ∧
      (encFinishEffect (encFeeds bs u)).outq = u.outq ++ base64 bs := by
  induction bs using base64Open.induct generalizing u with
  | case1 => simp [base64Open, base64, encFinishEffect, encFinishEmits, hg, EncGroup.bits]
  | case2 b0 =>
    simp [base64Open, base64, encFeedEffect, encFinishEffect, encFinishEmits, hg, EncGroup.bits, encTop6, encLow2Carry]
  | case3 b0 b1 =>
    simp [base64Open, base64, encFeedEffect, encFinishEffect, encFinishEmits, hg, EncGroup.bits, encTop6,
      encSecondIndex, encLow4Carry]
  | case4 b0 b1 b2 rest ih =>
    obtain ⟨hg', hgroup⟩ := encFeedEffect_group b0 b1 b2 hg
    obtain ⟨hopen, hbits, hclosed⟩ := ih hg'
    simp only [encFeeds_cons, base64Open, base64, length_group_mod]
    rw [hopen, hbits, hclosed, hgroup, List.append_assoc, List.append_assoc]
    exact ⟨rfl, rfl, rfl⟩

/-! ### Length and padding of the text -/

theorem base64Open_length (bs : List Byte) : (base64Open bs).length = bs.length + bs.length / 3 := by
  induction bs using base64Open.induct with
  | case1 => rfl
  | case2 b0 => simp [base64Open]
  | case3 b0 b1 => simp [base64Open]
  | case4 b0 b1 b2 rest ih =>
    simp only [base64Open, groupChars, List.length_append, List.length_cons, List.length_nil, ih]
    omega

theorem base64_length (bs : List Byte) : (base64 bs).length = 4 * ((bs.length + 2) / 3) := by
  induction bs using base64.induct with
  | case1 => rfl
  | case2 b0 => simp [base64]
  | case3 b0 b1 => simp [base64]
  | case4 b0 b1 b2 rest ih =>
    simp only [base64, groupChars, List.length_append, List.length_cons, List.length_nil, ih]
    omega

theorem padByte_notMem_groupChars (b0 b1 b2 : Byte) : padByte ∉ groupChars b0 b1 b2 := by
  simp [groupChars, (alpha_ne_pad _).symm]

theorem padByte_notMem_base64Open (bs : List Byte) : padByte ∉ base64Open bs := by
  induction bs using base64Open.induct with
  | case1 => simp [base64Open]
  | case2 b0 => simp [base64Open, (alpha_ne_pad _).symm]
  | case3 b0 b1 => simp [base64Open, (alpha_ne_pad _).symm]
  | case4 b0 b1 b2 rest ih =>
    rw [base64Open, List.mem_append, not_or]
    exact ⟨padByte_notMem_groupChars b0 b1 b2, ih⟩

/-- The number of padding bytes (R85). -/
def padCount (n : Nat) : Nat := if n % 3 = 0 then 0 else if n % 3 = 1 then 2 else 1

/-- The text is characters of the alphabet and then the padding of R85. -/
theorem base64_eq_body_append_pad (bs : List Byte) :
    ∃ body, base64 bs = body ++ List.replicate (padCount bs.length) padByte ∧ padByte ∉ body := by
  induction bs using base64.induct with
  | case1 => exact ⟨[], rfl, by simp⟩
  | case2 b0 => exact ⟨[_, _], rfl, by simp [(alpha_ne_pad _).symm]⟩
  | case3 b0 b1 => exact ⟨[_, _, _], rfl, by simp [(alpha_ne_pad _).symm]⟩
  | case4 b0 b1 b2 rest ih =>
    obtain ⟨body, heq, hpad⟩ := ih
    have hcount : padCount (b0 :: b1 :: b2 :: rest).length = padCount rest.length := by
      rw [padCount, length_group_mod, padCount]
    refine ⟨groupChars b0 b1 b2 ++ body, by rw [base64, heq, hcount, List.append_assoc], ?_⟩
    rw [List.mem_append, not_or]
    exact ⟨padByte_notMem_groupChars b0 b1 b2, hpad⟩

end Sys2Proof.Reference
end

section
/-! SUPPORT. The decoder's effect folded over a symbol sequence gives the bytes the sequence completes (20_memory.md
R50, 41_decoder.md R98), and the symbols of a base64 text give back its bytes (R102). No clock occurs here. -/

namespace Sys2Proof.Reference

open Sys2Proof.Machine

/-- The decoder after a symbol sequence (R93 to R96), whatever the queue depth. -/
def decSymbols (ds : List Symbol) (u : DecUnit) : DecUnit := ds.foldl (fun v d => decSymbolEffect d v) u

@[simp] theorem decSymbols_nil (u : DecUnit) : decSymbols [] u = u := rfl
@[simp] theorem decSymbols_cons (d : Symbol) (ds : List Symbol) (u : DecUnit) :
    decSymbols (d :: ds) u = decSymbols ds (decSymbolEffect d u) := rfl

/-- One more accepted byte (R91): its symbol, if it has one, is the last of the sequence. -/
theorem decSymbols_symbolsOf_append_singleton (bs : List Byte) (b : Byte) (u : DecUnit) :
    decSymbols (symbolsOf (bs ++ [b])) u = decFeedEffect b (decSymbols (symbolsOf bs) u) := by
  cases hb : symbolOf b with
  | none => simp [symbolsOf, decSymbols, hb, decFeedEffect_of_ignored]
  | some d => simp [symbolsOf, decSymbols, hb, decFeedEffect_of_symbol]

/-- The four symbols of a whole group (R93 to R96) emit its three bytes (R50) and lead back to state 0. -/
theorem decSymbolEffect_group (d0 d1 d2 d3 : Symbol) {u : DecUnit} (hg : u.gstate = .g0) :
    let v := decSymbolEffect d3 (decSymbolEffect d2 (decSymbolEffect d1 (decSymbolEffect d0 u)))
    v.gstate = .g0 ∧ v.outq = u.outq ++ groupBytes d0 d1 d2 d3 := by
  simp [decSymbolEffect, hg, groupBytes, groupByte0, groupByte1, groupByte2]

theorem ofNat_length_group (d0 d1 d2 d3 : Symbol) (rest : List Symbol) :
    BitVec.ofNat 2 (d0 :: d1 :: d2 :: d3 :: rest).length = BitVec.ofNat 2 rest.length :=
  BitVec.eq_of_toNat_eq (Nat.add_mod_right rest.length 4)

/-- From group state 0 the symbols emit the bytes they complete, and GSTATE counts the symbols of the last group
(R20, R98). -/
theorem decSymbols_of_g0 (ds : List Symbol) {u : DecUnit} (hg : u.gstate = .g0) :
    (decSymbols ds u).outq = u.outq ++ symbolBytes ds ∧
      (decSymbols ds u).gstate.bits = BitVec.ofNat 2 ds.length := by
  induction ds using symbolBytes.induct generalizing u with
  | case1 => simp [symbolBytes, hg, DecGroup.bits]
  | case2 d0 => simp [symbolBytes, decSymbolEffect, hg, DecGroup.bits]
  | case3 d0 d1 => simp [symbolBytes, decSymbolEffect, hg, DecGroup.bits, decSecondByte]
  | case4 d0 d1 d2 => simp [symbolBytes, decSymbolEffect, hg, DecGroup.bits, decSecondByte, decThirdByte]
  | case5 d0 d1 d2 d3 rest ih =>
    obtain ⟨hg', hgroup⟩ := decSymbolEffect_group d0 d1 d2 d3 hg
    obtain ⟨hbytes, hbits⟩ := ih hg'
    simp only [decSymbols_cons, symbolBytes, ofNat_length_group]
    rw [hbytes, hbits, hgroup, List.append_assoc]
    exact ⟨rfl, rfl⟩

theorem symbolBytes_length (ds : List Symbol) : (symbolBytes ds).length = 3 * ds.length / 4 := by
  induction ds using symbolBytes.induct with
  | case1 => rfl
  | case2 d0 => simp [symbolBytes]
  | case3 d0 d1 => simp [symbolBytes]
  | case4 d0 d1 d2 => simp [symbolBytes]
  | case5 d0 d1 d2 d3 rest ih =>
    simp only [symbolBytes, groupBytes, List.length_append, List.length_cons, List.length_nil, ih]
    omega

/-! ### The round trip -/

/-- The symbols of a text's characters are the indices they were looked up with; the padding has none. -/
theorem symbolsOf_cons_alpha (d : Symbol) (bs : List Byte) : symbolsOf (alpha d :: bs) = d :: symbolsOf bs :=
  List.filterMap_cons_some (symbolOf_alpha d)

theorem symbolsOf_cons_pad (bs : List Byte) : symbolsOf (padByte :: bs) = symbolsOf bs :=
  List.filterMap_cons_none symbolOf_pad

/-- The slices of a 24-bit group, put together again, are the group (R50). -/
theorem append_groupSlices (g : BitVec 24) :
    (g.extractLsb' 18 6 ++ g.extractLsb' 12 6 ++ g.extractLsb' 6 6 ++ g.extractLsb' 0 6 : BitVec 24) = g :=
  calc (g.extractLsb' 18 6 ++ g.extractLsb' 12 6 ++ g.extractLsb' 6 6 ++ g.extractLsb' 0 6 : BitVec 24)
    _ = g.extractLsb' 12 12 ++ g.extractLsb' 6 6 ++ g.extractLsb' 0 6 := by
      rw [BitVec.extractLsb'_append_extractLsb'_eq_extractLsb' (by decide)]
    _ = g.extractLsb' 6 18 ++ g.extractLsb' 0 6 := by
      rw [BitVec.extractLsb'_append_extractLsb'_eq_extractLsb' (by decide)]
    _ = g := BitVec.extractLsb'_append_extractLsb'

/-- The bytes of the four indices of a group are the group's bytes (R50, R102). -/
theorem groupBytes_groupSlices (b0 b1 b2 : Byte) :
    let g : BitVec 24 := b0 ++ b1 ++ b2
    groupBytes (g.extractLsb' 18 6) (g.extractLsb' 12 6) (g.extractLsb' 6 6) (g.extractLsb' 0 6) = [b0, b1, b2] := by
  intro g
  have h0 : g.extractLsb' 16 8 = b0 :=
    (BitVec.extractLsb'_append_eq_of_le (by decide)).trans BitVec.extractLsb'_append_eq_left
  have h1 : g.extractLsb' 8 8 = b1 :=
    (BitVec.extractLsb'_append_eq_of_le (by decide)).trans BitVec.extractLsb'_append_eq_right
  have h2 : g.extractLsb' 0 8 = b2 := BitVec.extractLsb'_append_eq_right
  rw [groupBytes, append_groupSlices, h0, h1, h2]

/-- A byte is its two fields, at the two places where a group of fewer than three bytes cuts it (R84). -/
theorem append_fields_2 (b : Byte) : (b.extractLsb' 2 6 ++ b.extractLsb' 0 2 : Byte) = b :=
  BitVec.extractLsb'_append_extractLsb'

theorem append_fields_4 (b : Byte) : (b.extractLsb' 4 4 ++ b.extractLsb' 0 4 : Byte) = b :=
  BitVec.extractLsb'_append_extractLsb'

/-- Decoding the text of a byte sequence gives back the sequence (R102). -/
theorem symbolBytes_symbolsOf_base64 (bs : List Byte) : symbolBytes (symbolsOf (base64 bs)) = bs := by
  induction bs using base64.induct with
  | case1 => rfl
  | case2 b0 =>
    have hcarry : BitVec.extractLsb' 4 2 (b0.extractLsb' 0 2 ++ 0b0000#4) = b0.extractLsb' 0 2 :=
      BitVec.extractLsb'_append_eq_left
    calc symbolBytes (symbolsOf (base64 [b0]))
      _ = symbolBytes [b0.extractLsb' 2 6, b0.extractLsb' 0 2 ++ 0b0000#4] := by
        simp only [base64, symbolsOf_cons_alpha, symbolsOf_cons_pad]; rfl
      _ = [b0] := by rw [symbolBytes, hcarry, append_fields_2]
  | case3 b0 b1 =>
    have hcarry : BitVec.extractLsb' 4 2 (b0.extractLsb' 0 2 ++ b1.extractLsb' 4 4) = b0.extractLsb' 0 2 :=
      BitVec.extractLsb'_append_eq_left
    have htop : BitVec.extractLsb' 0 4 (b0.extractLsb' 0 2 ++ b1.extractLsb' 4 4) = b1.extractLsb' 4 4 :=
      BitVec.extractLsb'_append_eq_right
    have hlow : BitVec.extractLsb' 2 4 (b1.extractLsb' 0 4 ++ 0b00#2) = b1.extractLsb' 0 4 :=
      BitVec.extractLsb'_append_eq_left
    calc symbolBytes (symbolsOf (base64 [b0, b1]))
      _ = symbolBytes [b0.extractLsb' 2 6, b0.extractLsb' 0 2 ++ b1.extractLsb' 4 4,
          b1.extractLsb' 0 4 ++ 0b00#2] := by
        simp only [base64, symbolsOf_cons_alpha, symbolsOf_cons_pad]; rfl
      _ = [b0, b1] := by rw [symbolBytes, hcarry, htop, hlow, append_fields_2, append_fields_4]
  | case4 b0 b1 b2 rest ih =>
    simp only [base64, groupChars, List.cons_append, List.nil_append, symbolsOf_cons_alpha, symbolBytes, ih,
      groupBytes_groupSlices]

end Sys2Proof.Reference
end

section
/-! SUPPORT. Every run of a unit follows its history: it has put out what the accepted bytes give, and between whole
groups it holds what they leave (20_memory.md R48, 40_encoder.md R84, 41_decoder.md R98), and the statements about what
a run computes. -/

namespace Sys2Proof.Machine

open Sys2Proof.Reference

/-! ### A run against a fold of the commands' effects -/

/-- The run has the group state and NEXT of `v`, and has put out, popped or not, what `v` holds in its queue: `v` is the
unit as it would be with nothing popped. -/
def UnitRun.Tracks {G : Type} {w : Nat} (x : UnitRun G w) (v : UnitRegs G w) : Prop :=
  x.regs.gstate = v.gstate ∧ x.regs.next = v.next ∧ x.output = v.outq

/-- What is emitted is the same on both sides, and goes to the end. -/
theorem UnitRun.Tracks.append {G : Type} {w : Nat} {x : UnitRun G w} {v : UnitRegs G w} (h : x.Tracks v)
    (e : List Byte) : x.stream ++ (x.regs.outq ++ e) = v.outq ++ e := by
  obtain ⟨-, -, houtput⟩ := h
  rw [← List.append_assoc, ← houtput]
  rfl

theorem UnitRun.Tracks.pop {G : Type} {w : Nat} {x : UnitRun G w} {v : UnitRegs G w} (h : x.Tracks v) :
    x.pop.Tracks v := by
  obtain ⟨hgstate, hnext, houtput⟩ := h
  exact ⟨hgstate, hnext, x.pop_output.trans houtput⟩

/-- FEED reads the group state and NEXT alone (R77 to R79). -/
theorem UnitRun.Tracks.encFeed {x : UnitRun EncGroup 6} {v : EncUnit} (h : x.Tracks v) (c : Byte) :
    UnitRun.Tracks ⟨encFeedEffect c x.regs, x.stream⟩ (encFeedEffect c v) := by
  have ⟨hgstate, hnext, _⟩ := h
  cases hg : v.gstate with
  | g0 =>
    rw [encFeedEffect_of_g0 (hgstate.trans hg), encFeedEffect_of_g0 hg]
    exact ⟨rfl, rfl, h.append _⟩
  | g1 =>
    rw [encFeedEffect_of_g1 (hgstate.trans hg), encFeedEffect_of_g1 hg, hnext]
    exact ⟨rfl, rfl, h.append _⟩
  | g2 =>
    rw [encFeedEffect_of_g2 (hgstate.trans hg), encFeedEffect_of_g2 hg, hnext]
    exact ⟨rfl, rfl, h.append _⟩

/-- FINISH reads the group state and NEXT alone (R81 to R83). -/
theorem UnitRun.Tracks.encFinish {x : UnitRun EncGroup 6} {v : EncUnit} (h : x.Tracks v) :
    x.stream ++ (encFinishEffect x.regs).outq = (encFinishEffect v).outq := by
  have ⟨hgstate, hnext, houtput⟩ := h
  cases hg : v.gstate with
  | g0 => simpa [encFinishEffect, encFinishEmits, hg, hgstate, UnitRun.output] using houtput
  | g1 =>
    rw [encFinishEffect_of_g1 (hgstate.trans hg), encFinishEffect_of_g1 hg, hnext]
    exact h.append _
  | g2 =>
    rw [encFinishEffect_of_g2 (hgstate.trans hg), encFinishEffect_of_g2 hg, hnext]
    exact h.append _

/-- A symbol reads the group state and NEXT alone (R93 to R96). -/
theorem UnitRun.Tracks.decSymbol {x : UnitRun DecGroup 8} {v : DecUnit} (h : x.Tracks v) (d : Symbol) :
    UnitRun.Tracks ⟨decSymbolEffect d x.regs, x.stream⟩ (decSymbolEffect d v) := by
  have ⟨hgstate, hnext, houtput⟩ := h
  cases hg : v.gstate with
  | g0 =>
    rw [decSymbolEffect_of_g0 (hgstate.trans hg), decSymbolEffect_of_g0 hg]
    exact ⟨rfl, rfl, houtput⟩
  | g1 =>
    rw [decSymbolEffect_of_g1 (hgstate.trans hg), decSymbolEffect_of_g1 hg, hnext]
    exact ⟨rfl, rfl, h.append _⟩
  | g2 =>
    rw [decSymbolEffect_of_g2 (hgstate.trans hg), decSymbolEffect_of_g2 hg, hnext]
    exact ⟨rfl, rfl, h.append _⟩
  | g3 =>
    rw [decSymbolEffect_of_g3 (hgstate.trans hg), decSymbolEffect_of_g3 hg, hnext]
    exact ⟨rfl, rfl, h.append _⟩

theorem UnitRun.Tracks.decFeed {x : UnitRun DecGroup 8} {v : DecUnit} (h : x.Tracks v) (b : Byte) :
    UnitRun.Tracks ⟨decFeedEffect b x.regs, x.stream⟩ (decFeedEffect b v) := by
  cases hb : symbolOf b with
  | none => rwa [decFeedEffect_of_ignored hb, decFeedEffect_of_ignored hb]
  | some d => rw [decFeedEffect_of_symbol hb, decFeedEffect_of_symbol hb]; exact h.decSymbol d

/-! ### The encoder's run -/

/-- The encoder after FEED of the bytes of its history, with nothing popped. -/
def RunHistory.encFed (h : RunHistory) : EncUnit := encFeeds h.fed EncUnit.reset

/-- The run follows its history: PHASE is the history's, and the output is that of the bytes fed, with FINISH's after
FINISH; before it the group state and NEXT are those the bytes leave. -/
def EncFollows (h : RunHistory) (x : UnitRun EncGroup 6) : Prop :=
  x.regs.phase = h.phase ∧ (h.phase = .done → x.output = (encFinishEffect h.encFed).outq) ∧
    (h.phase ≠ .done → x.Tracks h.encFed)

theorem EncFollows.command {h : RunHistory} {x : UnitRun EncGroup 6} {i : Instr} (hunit : i.unit = .enc)
    (hrun : x.regs.phase = .run) (hx : EncFollows h x) :
    EncFollows (h.record i) ⟨encEffectOf i x.regs, x.stream⟩ := by
  obtain ⟨hphase, -, htracks⟩ := hx
  have hh : h.phase = .run := hphase.symm.trans hrun
  replace htracks := htracks (by simp [hh])
  obtain ⟨c, rfl⟩ | ⟨_, rfl⟩ | ⟨_, rfl | rfl⟩ := Instr.of_unit_enc hunit
  · refine ⟨(encFeedEffect_frame c x.regs).1.trans hphase, fun hd => (nomatch hh.symm.trans hd), fun _ => ?_⟩
    rw [RunHistory.encFed, RunHistory.record, encFeeds_append_singleton]
    exact htracks.encFeed c
  · exact ⟨rfl, fun _ => htracks.encFinish, fun hd => absurd rfl hd⟩
  · exact ⟨rfl, nofun, fun _ => htracks⟩
  · exact ⟨rfl, nofun, fun _ => htracks⟩

theorem EncFollows.pop {h : RunHistory} {x : UnitRun EncGroup 6} (hx : EncFollows h x) : EncFollows h x.pop := by
  obtain ⟨hphase, hdone, htracks⟩ := hx
  exact ⟨hphase, fun hd => x.pop_output.trans (hdone hd), fun hd => (htracks hd).pop⟩

theorem EncFollows.start : EncFollows .start ⟨EncUnit.reset, []⟩ := ⟨rfl, nofun, fun _ => ⟨rfl, rfl, rfl⟩⟩

/-- Every run of the encoder follows its history. -/
theorem encFollows_of_steps {k : Nat} {s t : State} (hstart : s.EncRunStart) (hsteps : steps k s = .next t) :
    EncFollows (encHistory k .start s) t.encRun := by
  refine encHistory_invariant (fun h s => EncFollows h s.encRun) (fun h s t hs hstep => ?_) k .start s t ?_ hsteps
  · rw [step_encRun hstep]
    exact (encKind s.cfg.encDepth).edge_keeps EncFollows.start
      (fun _ _ _ hunit hrun _ hx => hx.command hunit hrun) (fun _ _ hx => hx.pop) s.encPins hs
  · obtain ⟨hregs, hstream⟩ := hstart
    rw [State.encRun, hregs, hstream]
    exact EncFollows.start

/-- The output of a run before FINISH and after it. -/
theorem encOutput_of_steps {k : Nat} {s t : State} (hstart : s.EncRunStart) (hsteps : steps k s = .next t) :
    (t.enc.phase = .done → t.encOutput = base64 (encHistory k .start s).fed) ∧
      (t.enc.phase ≠ .done → t.encOutput = base64Open (encHistory k .start s).fed ∧
        t.enc.gstate.bits = BitVec.ofNat 2 ((encHistory k .start s).fed.length % 3)) := by
  obtain ⟨hphase, hdone, htracks⟩ := encFollows_of_steps hstart hsteps
  obtain ⟨hopen, hbits, hclosed⟩ := encFeeds_of_g0 (encHistory k .start s).fed (u := EncUnit.reset) rfl
  rw [State.encRun_regs] at hphase
  rw [hphase]
  refine ⟨fun hd => (hdone hd).trans hclosed, fun hd => ?_⟩
  obtain ⟨hgstate, -, houtput⟩ := htracks hd
  exact ⟨houtput.trans hopen, (congrArg EncGroup.bits hgstate).trans hbits⟩

/-- Settles O51: the run follows its history, and the effects folded over the bytes fed are the base64 text
(`encFeeds_of_g0`). -/
theorem encoderRunIsBase64 : Obligations.EncoderRunIsBase64 := by
  unfold Obligations.EncoderRunIsBase64
  intro k s t hstart hsteps
  obtain ⟨hphase, -⟩ := encFollows_of_steps hstart hsteps
  obtain ⟨hclosed, hopen⟩ := encOutput_of_steps hstart hsteps
  refine ⟨hphase, ?_⟩
  split_ifs with hd
  · exact hclosed hd
  · exact (hopen hd).1

/-- Settles O54: the text's length and padding (R85), and GSTATE of `encOutput_of_steps`. -/
theorem encoderLengthAndPadding : Obligations.EncoderLengthAndPadding := by
  unfold Obligations.EncoderLengthAndPadding
  intro k s t hstart hsteps n
  obtain ⟨hclosed, hopen⟩ := encOutput_of_steps hstart hsteps
  refine ⟨fun hd => ?done, fun hd => ?running⟩
  case done =>
    rw [hclosed hd]
    exact ⟨base64_length _, base64_eq_body_append_pad _⟩
  case running =>
    obtain ⟨houtput, hbits⟩ := hopen hd
    rw [houtput]
    exact ⟨base64Open_length _, padByte_notMem_base64Open _, hbits⟩

/-! ### The decoder's run -/

/-- The decoder after the symbols among the bytes of its history, with nothing popped. -/
def RunHistory.decFed (h : RunHistory) : DecUnit := decSymbols (symbolsOf h.fed) DecUnit.reset

/-- The run follows its history: PHASE is the history's, the output is that of the symbols fed, which FINISH keeps;
before it the group state and NEXT are those the symbols leave. -/
def DecFollows (h : RunHistory) (x : UnitRun DecGroup 8) : Prop :=
  x.regs.phase = h.phase ∧ x.output = h.decFed.outq ∧ (h.phase ≠ .done → x.Tracks h.decFed)

theorem DecFollows.command {h : RunHistory} {x : UnitRun DecGroup 8} {i : Instr} (hunit : i.unit = .dec)
    (hrun : x.regs.phase = .run) (hx : DecFollows h x) :
    DecFollows (h.record i) ⟨decEffectOf i x.regs, x.stream⟩ := by
  obtain ⟨hphase, houtput, htracks⟩ := hx
  have hh : h.phase = .run := hphase.symm.trans hrun
  replace htracks := htracks (by simp [hh])
  obtain ⟨b, rfl⟩ | ⟨_, rfl⟩ | ⟨_, rfl | rfl⟩ := Instr.of_unit_dec hunit
  · have hfed : (h.record (.decFeed b)).decFed = decFeedEffect b h.decFed :=
      decSymbols_symbolsOf_append_singleton h.fed b DecUnit.reset
    have htracks' := htracks.decFeed b
    rw [← hfed] at htracks'
    have ⟨_, _, houtput'⟩ := htracks'
    exact ⟨(decFeedEffect_frame b x.regs).1.trans hphase, houtput', fun _ => htracks'⟩
  · exact ⟨rfl, houtput, fun hd => absurd rfl hd⟩
  · exact ⟨rfl, houtput, fun _ => htracks⟩
  · exact ⟨rfl, houtput, fun _ => htracks⟩

theorem DecFollows.pop {h : RunHistory} {x : UnitRun DecGroup 8} (hx : DecFollows h x) : DecFollows h x.pop := by
  obtain ⟨hphase, houtput, htracks⟩ := hx
  exact ⟨hphase, x.pop_output.trans houtput, fun hd => (htracks hd).pop⟩

theorem DecFollows.start : DecFollows .start ⟨DecUnit.reset, []⟩ := ⟨rfl, rfl, fun _ => ⟨rfl, rfl, rfl⟩⟩

/-- Every run of the decoder follows its history. -/
theorem decFollows_of_steps {k : Nat} {s t : State} (hstart : s.DecRunStart) (hsteps : steps k s = .next t) :
    DecFollows (decHistory k .start s) t.decRun := by
  refine decHistory_invariant (fun h s => DecFollows h s.decRun) (fun h s t hs hstep => ?_) k .start s t ?_ hsteps
  · rw [step_decRun hstep]
    exact (decKind s.cfg.decDepth).edge_keeps DecFollows.start
      (fun _ _ _ hunit hrun _ hx => hx.command hunit hrun) (fun _ _ hx => hx.pop) s.decPins hs
  · obtain ⟨hregs, hstream⟩ := hstart
    rw [State.decRun, hregs, hstream]
    exact DecFollows.start

/-- The bytes of the decoder's history, as the reference completes them. -/
theorem RunHistory.decFed_outq (h : RunHistory) : h.decFed.outq = symbolBytes (symbolsOf h.fed) :=
  (decSymbols_of_g0 (symbolsOf h.fed) (u := DecUnit.reset) rfl).1

theorem decOutput_of_steps {k : Nat} {s t : State} (hstart : s.DecRunStart) (hsteps : steps k s = .next t) :
    t.decOutput = symbolBytes (symbolsOf (decHistory k .start s).fed) := by
  obtain ⟨-, houtput, -⟩ := decFollows_of_steps hstart hsteps
  exact houtput.trans (RunHistory.decFed_outq _)

/-- Settles O52: the run follows its history, and the effects folded over the symbols give the bytes they complete
(`decSymbols_of_g0`). -/
theorem decoderRunIsInverse : Obligations.DecoderRunIsInverse := by
  unfold Obligations.DecoderRunIsInverse
  intro k s t hstart hsteps
  obtain ⟨hphase, -, -⟩ := decFollows_of_steps hstart hsteps
  exact ⟨hphase, decOutput_of_steps hstart hsteps⟩

/-- Settles O55: the length of the bytes completed, and GSTATE of the symbols fed. -/
theorem decoderByteCount : Obligations.DecoderByteCount := by
  unfold Obligations.DecoderByteCount
  intro k s t hstart hsteps m
  obtain ⟨hphase, -, htracks⟩ := decFollows_of_steps hstart hsteps
  refine ⟨by rw [decOutput_of_steps hstart hsteps, symbolBytes_length], fun hd => ?_⟩
  obtain ⟨hgstate, -, -⟩ := htracks (hphase ▸ hd)
  obtain ⟨-, hbits⟩ := decSymbols_of_g0 (symbolsOf (decHistory k .start s).fed) (u := DecUnit.reset) rfl
  exact (congrArg DecGroup.bits hgstate).trans hbits

/-- Settles O56: output, GSTATE and NEXT are functions of the symbols fed. -/
theorem decoderLeniency : Obligations.DecoderLeniency := by
  unfold Obligations.DecoderLeniency
  intro k k' s s' t t' hstart hstart' hsteps hsteps' hsymbols
  have hfed : (decHistory k .start s).decFed = (decHistory k' .start s').decFed := by
    rw [RunHistory.decFed, hsymbols]; rfl
  obtain ⟨hphase, houtput, htracks⟩ := decFollows_of_steps hstart hsteps
  obtain ⟨hphase', houtput', htracks'⟩ := decFollows_of_steps hstart' hsteps'
  rw [← hfed] at houtput' htracks'
  refine ⟨houtput.trans houtput'.symm, fun hd hd' => ?_⟩
  obtain ⟨hgstate, hnext, -⟩ := htracks (hphase ▸ hd)
  obtain ⟨hgstate', hnext', -⟩ := htracks' (hphase' ▸ hd')
  exact ⟨hgstate.trans hgstate'.symm, hnext.trans hnext'.symm⟩

/-! ### The end of a run, the round trip and the throughput -/

/-- With an empty queue the host has popped the whole output (R48). -/
theorem encStream_of_empty {t : State} (hempty : t.enc.outq = []) : t.env.encStream = t.encOutput := by
  rw [State.encOutput, hempty, List.append_nil]

theorem decStream_of_empty {t : State} (hempty : t.dec.outq = []) : t.env.decStream = t.decOutput := by
  rw [State.decOutput, hempty, List.append_nil]

/-- The END bit of the status word (R27) marks a clean end (R130). -/
theorem UnitRegs.status_end_iff {G : Type} {w : Nat} (u : UnitRegs G w) (gbits : G → BitVec 2) :
    (u.status gbits).getLsbD 5 = true ↔ u.EndedCleanly := by
  rw [u.status_endFlag, u.endFlag_iff, List.length_eq_zero_iff]

/-- Settles O53: with an empty queue the popped bytes are the output of O51 and O52. -/
theorem endOfRunDeliversWholeOutput : Obligations.EndOfRunDeliversWholeOutput := by
  unfold Obligations.EndOfRunDeliversWholeOutput
  refine ⟨fun k s t hstart hsteps => ⟨t.enc.status_end_iff _, fun hend => ?clean, fun hend => ?fault⟩,
    fun k s t hstart hsteps => ⟨t.dec.status_end_iff _, fun hend => ?dec⟩⟩
  case clean =>
    obtain ⟨hdone, hempty⟩ := hend
    exact (encStream_of_empty hempty).trans ((encOutput_of_steps hstart hsteps).1 hdone)
  case fault =>
    obtain ⟨hfault, hempty⟩ := hend
    obtain ⟨hopen, -⟩ := (encOutput_of_steps hstart hsteps).2 (by simp [hfault])
    exact (encStream_of_empty hempty).trans hopen
  case dec =>
    have hempty : t.dec.outq = [] := hend.elim And.right And.right
    exact (decStream_of_empty hempty).trans (decOutput_of_steps hstart hsteps)

/-- Settles O57: the decoder's output is the decoding of the encoder's text (`symbolBytes_symbolsOf_base64`). -/
theorem roundTrip : Obligations.RoundTrip := by
  unfold Obligations.RoundTrip
  intro k k' s t s' t' hstart hsteps hend hstart' hsteps' hfed
  obtain ⟨hdone, hempty⟩ := hend
  have htext : t.env.encStream = base64 (encHistory k .start s).fed :=
    (encStream_of_empty hempty).trans ((encOutput_of_steps hstart hsteps).1 hdone)
  rw [decOutput_of_steps hstart' hsteps', hfed, htext, symbolBytes_symbolsOf_base64]

/-- A clock event delivers at most one byte of a unit (R64). -/
theorem UnitKind.edge_stream_length_le {G : Type} {w : Nat} (K : UnitKind G w) (e : Option Pins) (x : UnitRun G w) :
    (K.edge e x).stream.length ≤ x.stream.length + 1 := by
  cases he : resets e with
  | true => rw [K.edge_of_resets he]; exact Nat.zero_le _
  | false =>
    obtain heq | ⟨-, heq⟩ := K.edge_cases he x
    · rw [heq]; exact Nat.le_succ _
    · rw [heq, UnitRun.pop_stream, List.length_append]
      exact Nat.add_le_add_left (List.length_take_le 1 _) _

theorem UnitKind.run_stream_length_le {G : Type} {w : Nat} (K : UnitKind G w) (es : List (Option Pins))
    (x : UnitRun G w) : (K.run es x).stream.length ≤ x.stream.length + es.length := by
  induction es generalizing x with
  | nil => exact Nat.le_refl _
  | cons e es ih =>
    have hedge := K.edge_stream_length_le e x
    have hrest := ih (K.edge e x)
    rw [K.run_cons, List.length_cons]
    omega

/-- Every edge keeps the encoder's queue within its depth (R46). -/
theorem encKind_run_queueOk (depth : Nat) (es : List (Option Pins)) {x : UnitRun EncGroup 6}
    (h : x.regs.QueueOk depth) : ((encKind depth).run es x).regs.QueueOk depth := by
  induction es generalizing x with
  | nil => exact h
  | cons e es ih =>
    refine ih ((encKind depth).edge_keeps (P := fun _ y => y.regs.QueueOk depth) (h := .start) (Nat.zero_le _)
      (fun _ _ i _ _ hfree _ => encEffectOf_queueOk i hfree) (fun _ _ hq => hq.dropHead) e h)

/-- Before FINISH the text is no longer than after it. -/
theorem base64Open_length_le (bs : List Byte) : bs.length + bs.length / 3 ≤ (base64 bs).length := by
  rw [base64_length]
  omega

/-- The bytes fed give an output of at least `n + floor(n/3)` bytes (R85). -/
theorem fed_length_le_output {k : Nat} {s t : State} (hstart : s.EncRunStart) (hsteps : steps k s = .next t) :
    (encHistory k .start s).fed.length + (encHistory k .start s).fed.length / 3 ≤ t.encOutput.length := by
  obtain ⟨hclosed, hopen⟩ := encOutput_of_steps hstart hsteps
  by_cases hd : t.enc.phase = .done
  · rw [hclosed hd]; exact base64Open_length_le _
  · rw [(hopen hd).1, base64Open_length]

/-- Settles O58: the output is popped, at most one byte a step, or queued, and the queue is within its depth. -/
theorem encoderThroughput : Obligations.EncoderThroughput := by
  unfold Obligations.EncoderThroughput
  intro k s t hstart hsteps
  have ⟨hregs, hstream⟩ := hstart
  have hrun := steps_encRun hsteps
  constructor
  · have hout := fed_length_le_output hstart hsteps
    have hpopped := (encKind s.cfg.encDepth).run_stream_length_le ((s.env.ticks.map Tick.enc).take k) s.encRun
    rw [← hrun, State.encRun_stream, State.encRun_stream, hstream, List.length_nil] at hpopped
    have hk : ((s.env.ticks.map Tick.enc).take k).length ≤ k := List.length_take_le k _
    rw [State.encOutput, List.length_append] at hout
    omega
  · have hqueue : s.encRun.regs.QueueOk s.cfg.encDepth := by
      rw [State.encRun_regs, hregs]; exact Nat.zero_le _
    have hkept := encKind_run_queueOk s.cfg.encDepth ((s.env.ticks.map Tick.enc).take k) hqueue
    rwa [← hrun] at hkept

end Sys2Proof.Machine
end

section
/-! SUPPORT. The remaining statements about the ROMs, single commands and ports (20_memory.md R38 to R43, 40_encoder.md
R80, 41_decoder.md R97, 60_exceptions.md R107, 30_encoding.md R62 to R65, 10_state.md R28). -/

namespace Sys2Proof.Machine

/-! ### The ROMs -/

/-- Settles O6, by reading the 64 entries of the table. -/
theorem alphabetOrder : Obligations.AlphabetOrder := by
  unfold Obligations.AlphabetOrder
  decide

theorem alpha_injective {i j : Symbol} (h : alpha i = alpha j) : i = j :=
  Option.some.inj ((symbolOf_alpha i).symm.trans ((congrArg symbolOf h).trans (symbolOf_alpha j)))

/-- A symbol's entry has `IGN = 0` and the symbol for `VAL` (R41). -/
theorem inv_of_symbol {b : Byte} {d : Symbol} (h : symbolOf b = some d) : inv b = 0#1 ++ d := by
  have hign : invIgn (inv b) = false := by
    by_contra htrue
    simp [(symbolOf_eq_none_iff_ign b).mpr (by simpa using htrue)] at h
  have hval : invVal (inv b) = d := Option.some.inj ((symbolOf_eq_some_of_not_ign hign).symm.trans h)
  rw [← invEntry_invIgn_invVal (inv b), hign, hval]
  rfl

/-- A byte outside the alphabet has the last row's entry (R42). -/
theorem inv_of_notMem {b : Byte} (h : b ∉ alphaTable) : inv b = 0b1000000#7 := by
  have hign : invIgn (inv b) = true := (symbolOf_eq_none_iff_ign b).mp ((symbolOf_none_iff b).mpr h)
  obtain ⟨val, hrow⟩ | hrow := inv_cases b
  · simp [hrow] at hign
  · exact hrow

/-- Settles O8: ALPHA and INV undo each other on the alphabet, and the symbol bytes are counted by
`symbolBytes_perm_alphaTable`. -/
theorem inverseRomLaw : Obligations.InverseRomLaw := by
  unfold Obligations.InverseRomLaw
  refine ⟨fun i j => alpha_injective, fun i => ⟨alpha_ne_pad i, ?ascii, inv_of_symbol (symbolOf_alpha i)⟩,
    fun b => inv_of_notMem, ?count⟩
  case ascii =>
    obtain ⟨-, hlt, -⟩ := alphaTable_printing (alpha i) (alpha_mem i)
    omega
  case count =>
    have hpred : (fun n : Nat => !invIgn (inv (BitVec.ofNat 8 n))) =
        fun n => !(symbolOf (BitVec.ofNat 8 n) == none) := by
      funext n
      rw [Bool.not_inj_iff, Bool.eq_iff_iff, beq_iff_eq, symbolOf_eq_none_iff_ign]
    rw [hpred, symbolBytes_perm_alphaTable.length_eq, List.length_map, alphaTable_length]

/-! ### Single commands -/

/-- Settles O12: in state 0 nothing is emitted, and the end of the run is the whole effect. -/
theorem encFinishCompleteGroup : Obligations.EncFinishCompleteGroup := by
  unfold Obligations.EncFinishCompleteGroup
  intro data s hphase hfree hg
  exact exec_enc_next rfl hphase hfree (encFinishEffect_of_g0 hg)

/-- Settles O21: the end of the run is the whole effect. -/
theorem decFinishDiscardsPartialGroup : Obligations.DecFinishDiscardsPartialGroup := by
  unfold Obligations.DecFinishDiscardsPartialGroup
  exact fun data s hphase hfree => exec_dec_next rfl hphase hfree rfl

/-- Settles O23: fault entry is the whole effect of the four commands. -/
theorem reservedCommandsComplete : Obligations.ReservedCommandsComplete := by
  unfold Obligations.ReservedCommandsComplete
  exact ⟨fun data s hphase hfree => ⟨exec_enc_next rfl hphase hfree rfl, exec_enc_next rfl hphase hfree rfl⟩,
    fun data s hphase hfree => ⟨exec_dec_next rfl hphase hfree rfl, exec_dec_next rfl hphase hfree rfl⟩⟩

/-! ### Ports and status -/

/-- Settles O25: the port is readiness (R62) while `rst = 0`. -/
theorem commandReady : Obligations.CommandReady := by
  unfold Obligations.CommandReady
  intro s rst
  simp [State.encPorts, State.decPorts, State.encReady_iff, State.decReady_iff]

/-- The byte of the output port while it is valid (R47). -/
theorem head?_eq_outData {q : List Byte} (hq : q ≠ []) (u : UnitId) (draw : Nat) :
    q.head? = some (outData u true q draw) := by
  cases q with
  | nil => exact absurd rfl hq
  | cons b q => rfl

/-- Settles O28: the port is valid where the queue has a head, and then shows it. -/
theorem outputPortShowsHead : Obligations.OutputPortShowsHead := by
  unfold Obligations.OutputPortShowsHead
  intro s rst
  have henc : (s.encPorts rst).outValid = true ↔ rst = false ∧ s.enc.outq ≠ [] := by
    simp [State.encPorts, UnitRegs.hasByte_iff]
  have hdec : (s.decPorts rst).outValid = true ↔ rst = false ∧ s.dec.outq ≠ [] := by
    simp [State.decPorts, UnitRegs.hasByte_iff]
  refine ⟨henc, hdec, fun hvalid => ?encHead, fun hvalid => ?decHead, fun hvalid => ?encFree,
    fun hvalid => ?decFree⟩
  case encHead =>
    change _ = some (outData .enc (s.encPorts rst).outValid _ _)
    rw [hvalid]
    exact head?_eq_outData (henc.mp hvalid).2 _ _
  case decHead =>
    change _ = some (outData .dec (s.decPorts rst).outValid _ _)
    rw [hvalid]
    exact head?_eq_outData (hdec.mp hvalid).2 _ _
  case encFree =>
    change outData .enc (s.encPorts rst).outValid _ _ = _
    rw [hvalid]
    rfl
  case decFree =>
    change outData .dec (s.decPorts rst).outValid _ _ = _
    rw [hvalid]
    rfl

section StatusCodes

variable {G : Type} {w : Nat} (u : UnitRegs G w) (gbits : G → BitVec 2)

/-- PHASE never reads 2'b11 (R28). -/
theorem UnitRegs.status_phase_ne : (u.status gbits).extractLsb' 0 2 ≠ 0b11#2 := by
  rw [u.status_phase]
  cases u.phase <;> decide

/-- The high bit of ERRC reads 0 (R28). -/
theorem UnitRegs.status_errc_high : (u.status gbits).getLsbD 7 = false := by
  have hfield : ((u.status gbits).extractLsb' 6 2).getLsbD 1 = (u.status gbits).getLsbD 7 := by simp
  rw [← hfield, u.status_errc]
  cases u.errc <;> rfl

/-- ERRC reads nonzero exactly where PHASE reads FAULT, by R25. -/
theorem UnitRegs.status_errc_iff (h : u.ErrcOk) :
    (u.status gbits).extractLsb' 6 2 ≠ 0b00#2 ↔ (u.status gbits).extractLsb' 0 2 = 0b10#2 := by
  have herrc : u.errc.bits ≠ 0b00#2 ↔ u.errc ≠ .noError := by cases u.errc <;> decide
  have hphase : u.phase.bits = 0b10#2 ↔ u.phase = .fault := by cases u.phase <;> decide
  rw [u.status_errc, u.status_phase, herrc, hphase]
  exact h

end StatusCodes

/-- Settles O30: the codes are those of the fields of `UnitRegs.status_fields`, and R25 is a part of the invariant. -/
theorem statusUnusedCodesNeverRead : Obligations.StatusUnusedCodesNeverRead := by
  unfold Obligations.StatusUnusedCodesNeverRead
  refine fun s => ⟨s.enc.status_phase_ne _, s.dec.status_phase_ne _, s.enc.status_errc_high _,
    s.dec.status_errc_high _, ?gstate, fun hinv => ?enc, fun hinv => ?dec⟩
  case gstate =>
    rw [State.encStatus, s.enc.status_gstate]
    cases s.enc.gstate <;> decide
  case enc =>
    obtain ⟨-, ⟨herrc, -⟩, -⟩ := hinv
    exact s.enc.status_errc_iff _ herrc
  case dec =>
    obtain ⟨-, -, ⟨herrc, -⟩⟩ := hinv
    exact s.dec.status_errc_iff _ herrc

/-- Settles O39, by reading the registers of `State.reset`. -/
theorem resetState : Obligations.ResetState := by
  unfold Obligations.ResetState
  exact ⟨rfl, rfl, by decide, by decide, rfl⟩

end Sys2Proof.Machine
end

section
/-! SUPPORT. Single edges and their events: reset, a command alone, a pop alone, and the statements about the clock step
(30_encoding.md R66, 60_exceptions.md R112, 70_reset_and_hazards.md R122 to R124). -/

namespace Sys2Proof.Machine

section Edges

variable {s : State} {p : Pins}

theorem encEdge_of_rst (hrst : p.rst = true) : encEdge p s = .next s.resetEnc := by simp [encEdge_eq, hrst]

theorem decEdge_of_rst (hrst : p.rst = true) : decEdge p s = .next s.resetDec := by simp [decEdge_eq, hrst]

theorem andThen_next_right (o : Answer) : andThen o .next = o := by cases o <;> rfl

/-- With a command and no pop an edge is the command (R66). -/
theorem encEdge_of_command (hrst : p.rst = false) (hvalid : p.cmdValid = true) (hready : p.outReady = false) :
    encEdge p s = exec (decode .enc p.cmd) s := by
  simp [encEdge, hrst, hvalid, hready, andThen_next_right]

/-- With a command and no pop an edge is the command (R66). -/
theorem decEdge_of_command (hrst : p.rst = false) (hvalid : p.cmdValid = true) (hready : p.outReady = false) :
    decEdge p s = exec (decode .dec p.cmd) s := by
  simp [decEdge, hrst, hvalid, hready, andThen_next_right]

/-- A pop of an empty queue leaves the state as it was. -/
theorem State.encPop_of_empty (hempty : s.enc.outq = []) : s.encPop = s := by
  unfold State.encPop UnitRegs.dropHead
  rw [hempty, List.take_nil, List.append_nil, List.tail_nil, ← hempty]
  rfl

/-- A pop of an empty queue leaves the state as it was. -/
theorem State.decPop_of_empty (hempty : s.dec.outq = []) : s.decPop = s := by
  unfold State.decPop UnitRegs.dropHead
  rw [hempty, List.take_nil, List.append_nil, List.tail_nil, ← hempty]
  rfl

/-- Where no command is accepted and the host takes a byte, the edge is the pop (R64, R68). -/
theorem encEdge_of_pop (hrst : p.rst = false) (hcmd : encCommanded p s = s) (hready : p.outReady = true) :
    encEdge p s = .next s.encPop := by
  cases hb : s.enc.hasByte with
  | true => simp [encEdge_eq, hrst, hcmd, hready, hb]
  | false =>
    have hempty : s.enc.outq = [] := by simpa [hb] using s.enc.hasByte_iff
    simp [encEdge_eq, hrst, hcmd, hb, State.encPop_of_empty hempty]

/-- Where no command is accepted and the host takes a byte, the edge is the pop (R64, R68). -/
theorem decEdge_of_pop (hrst : p.rst = false) (hcmd : decCommanded p s = s) (hready : p.outReady = true) :
    decEdge p s = .next s.decPop := by
  cases hb : s.dec.hasByte with
  | true => simp [decEdge_eq, hrst, hcmd, hready, hb]
  | false =>
    have hempty : s.dec.outq = [] := by simpa [hb] using s.dec.hasByte_iff
    simp [decEdge_eq, hrst, hcmd, hb, State.decPop_of_empty hempty]

/-- An event that is an edge of the encoder alone. -/
theorem step_of_encTick {rest : List Tick} (h : s.env.ticks = ⟨some p, none⟩ :: rest) :
    step s = encEdge p { s with env := { s.env with ticks := rest, draws := s.env.draws + 1 } } := by
  simp only [step, clockStep, h, encTick, State.takeTick, List.tail_cons]
  exact andThen_next_right _

/-- An event that is an edge of the decoder alone. -/
theorem step_of_decTick {rest : List Tick} (h : s.env.ticks = ⟨none, some p⟩ :: rest) :
    step s = decEdge p { s with env := { s.env with ticks := rest, draws := s.env.draws + 1 } } := by
  simp only [step, clockStep, h, encTick, State.takeTick, List.tail_cons]
  rfl

end Edges

/-- Settles O31: the event is an edge of one unit with a command and no pop. -/
theorem stepRunsDecodedCommand : Obligations.StepRunsDecodedCommand := by
  unfold Obligations.StepRunsDecodedCommand
  constructor
  · intro s p rest hticks hrst hvalid hready
    rw [step_of_encTick hticks, encEdge_of_command hrst hvalid hready]
  · intro s p rest hticks hrst hvalid hready
    rw [step_of_decTick hticks, decEdge_of_command hrst hvalid hready]

/-! ### Words presented by number -/

/-- The number of a port and a word names them (log entry 1). -/
theorem portWord_portNumber (u : UnitId) (w : CmdWord) : portWord (portNumber u w) = .ok (u, w) := by
  have hw : w.toNat < 2 ^ 10 := w.isLt
  cases u with
  | enc =>
    rw [portNumber, portWord, if_pos hw, BitVec.ofNat_toNat, BitVec.setWidth_eq]
  | dec =>
    have hword : BitVec.ofNat 10 (2 ^ 10 + w.toNat) = w :=
      BitVec.eq_of_toNat_eq ((Nat.add_mod_left _ _).trans (Nat.mod_eq_of_lt hw))
    rw [portNumber, portWord, if_neg (by omega), if_pos (by omega), hword]

theorem portNumber_mod (u : UnitId) (w : CmdWord) : portNumber u w % 2 ^ 16 = portNumber u w := by
  have hw := w.isLt
  refine Nat.mod_eq_of_lt ?_
  cases u <;> simp only [portNumber] <;> omega

theorem decodeTableWord_portNumber (u : UnitId) (w : CmdWord) :
    decodeTableWord 16 (portNumber u w) = some (decode u w) := by
  simp only [decodeTableWord, decodeNumber, portNumber_mod, portWord_portNumber]

theorem withFetchWord_portNumber (s : State) (u : UnitId) (w : CmdWord) :
    s.withFetchWord 16 (portNumber u w) = s.pushTick (presentTick u w) := by
  simp only [State.withFetchWord, numberTick, portNumber_mod, portWord_portNumber]

/-- A word presented at the next event is run by the next step. -/
theorem step_pushTick_presentTick (s : State) (u : UnitId) (w : CmdWord) :
    step (s.pushTick (presentTick u w)) =
      exec (decode u w) { s with env := { s.env with draws := s.env.draws + 1 } } := by
  cases u with
  | enc =>
    rw [step_of_encTick (s := s.pushTick (presentTick .enc w)) rfl]
    exact encEdge_of_command rfl rfl rfl
  | dec =>
    rw [step_of_decTick (s := s.pushTick (presentTick .dec w)) rfl]
    exact decEdge_of_command rfl rfl rfl

/-- Settles O32: the numbers are those of `portNumber`, and the event presents the word. -/
theorem presentedTableWordRuns : Obligations.PresentedTableWordRuns := by
  unfold Obligations.PresentedTableWordRuns
  have hruns : ∀ (u : UnitId) (s : State) (w : CmdWord),
      decodeTableWord 16 (portNumber u w) = some (decode u w) ∧
      step (s.withFetchWord 16 (portNumber u w)) =
        exec (decode u w) { s with env := { s.env with draws := s.env.draws + 1 } } := fun u s w =>
    ⟨decodeTableWord_portNumber u w, by rw [withFetchWord_portNumber, step_pushTick_presentTick]⟩
  exact ⟨hruns .enc, hruns .dec⟩

/-! ### The edges of one unit -/

theorem encCommanded_of_busy {s : State} (h : s.encReady = false) (p : Pins) : encCommanded p s = s := by
  simp [encCommanded, h]

theorem decCommanded_of_busy {s : State} (h : s.decReady = false) (p : Pins) : decCommanded p s = s := by
  simp [decCommanded, h]

/-- Settles O36: readiness is that of the registers before the edge, so the edge is the pop alone. -/
theorem spaceCountedBeforePop : Obligations.SpaceCountedBeforePop := by
  unfold Obligations.SpaceCountedBeforePop
  exact ⟨fun s p hbusy hrst hready => encEdge_of_pop hrst (encCommanded_of_busy hbusy p) hready,
    fun s p hbusy hrst hready => decEdge_of_pop hrst (decCommanded_of_busy hbusy p) hready⟩

/-- Settles O37: the edge answers the state reset in that unit. -/
theorem resetEdge : Obligations.ResetEdge := by
  unfold Obligations.ResetEdge
  exact ⟨fun s p hrst => ⟨_, encEdge_of_rst hrst, rfl, rfl, rfl, rfl, rfl, rfl, rfl, rfl⟩,
    fun s p hrst => ⟨_, decEdge_of_rst hrst, rfl, rfl, rfl, rfl, rfl, rfl, rfl, rfl⟩⟩

/-- The status words of the registers after reset (R30). -/
theorem reset_status :
    EncUnit.reset.status EncGroup.bits = 0x10#8 ∧ DecUnit.reset.status DecGroup.bits = 0x10#8 := by decide

/-- Settles O38: a reset edge reads `rst` alone, and the registers after reset are ready for every legal depth. -/
theorem resetWinsThenReady : Obligations.ResetWinsThenReady := by
  unfold Obligations.ResetWinsThenReady
  refine ⟨fun s => ⟨rfl, rfl, rfl, rfl⟩, fun s p q hp hq => ?alike, fun s t p hwf hrst h => ?enc,
    fun s t p hwf hrst h => ?dec⟩
  case alike => exact ⟨by rw [encEdge_of_rst hp, encEdge_of_rst hq], by rw [decEdge_of_rst hp, decEdge_of_rst hq]⟩
  case enc =>
    obtain rfl := Host.Outcome.next.inj ((encEdge_of_rst hrst).symm.trans h)
    exact ⟨s.resetEnc.encReady_iff.mpr ⟨rfl, hwf.1⟩, rfl, reset_status.1⟩
  case dec =>
    obtain rfl := Host.Outcome.next.inj ((decEdge_of_rst hrst).symm.trans h)
    exact ⟨s.resetDec.decReady_iff.mpr ⟨rfl, hwf.2⟩, rfl, reset_status.2⟩

/-! ### R66's own order -/

/-- Presenting a command answers the state with its effect, or the state itself (R62, R68). -/
theorem exec_eq_encCommanded (p : Pins) (s : State) :
    (if p.cmdValid then exec (decode .enc p.cmd) s else .next s) = .next (encCommanded p s) := by
  cases hvalid : p.cmdValid <;> cases hready : s.encReady <;>
    simp [encCommanded, hvalid, hready, exec_of_enc, State.encPresent]

/-- Presenting a command answers the state with its effect, or the state itself (R62, R68). -/
theorem exec_eq_decCommanded (p : Pins) (s : State) :
    (if p.cmdValid then exec (decode .dec p.cmd) s else .next s) = .next (decCommanded p s) := by
  cases hvalid : p.cmdValid <;> cases hready : s.decReady <;>
    simp [decCommanded, hvalid, hready, exec_of_dec, State.decPresent]

theorem encCommanded_appends (p : Pins) (s : State) : ∃ e, (encCommanded p s).enc.outq = s.enc.outq ++ e := by
  unfold encCommanded
  split_ifs
  · obtain ⟨e, happend, -⟩ := encEffectOf_emits (decode .enc p.cmd) s.enc
    exact ⟨e, happend⟩
  · exact ⟨[], by simp⟩

theorem decCommanded_appends (p : Pins) (s : State) : ∃ e, (decCommanded p s).dec.outq = s.dec.outq ++ e := by
  unfold decCommanded
  split_ifs
  · obtain ⟨e, happend, -⟩ := decEffectOf_emits (decode .dec p.cmd) s.dec
    exact ⟨e, happend⟩
  · exact ⟨[], by simp⟩

/-- The pop after the command takes the head that was there before it: the two orders of R66 and of log entry 11 give
the same queue and the same byte. -/
theorem pop_after_emit {G : Type} {w : Nat} {u v : UnitRegs G w} {e : List Byte} (happend : v.outq = u.outq ++ e)
    (taken : Bool) (stream : List Byte) :
    let x : UnitRun G w := if u.hasByte && taken then UnitRun.pop ⟨v, stream⟩ else ⟨v, stream⟩
    x.regs = { v with outq := (if taken ∧ 0 < u.outq.length then u.outq.tail else u.outq) ++ e } ∧
      x.stream = stream ++ (if taken then u.outq.take 1 else []) := by
  cases taken with
  | false => simp [← happend]
  | true =>
    cases hq : u.outq with
    | nil =>
      rw [hq, List.nil_append] at happend
      simp [UnitRegs.hasByte, hq, ← happend]
    | cons b q =>
      rw [hq] at happend
      simp [UnitRegs.hasByte, hq, UnitRun.pop, UnitRegs.dropHead, happend]

/-- The encoder's part of an event without reset, as the command and then the pop. -/
theorem encTicked_of_not_rst {p : Pins} (hrst : p.rst = false) (s : State) :
    (encTicked (some p) s).encRun =
      let y : UnitRun _ _ := ⟨(encCommanded p s).enc, s.env.encStream⟩
      if s.enc.hasByte && p.outReady then y.pop else y := by
  simp only [encTicked, hrst, Bool.false_eq_true, if_false]
  split_ifs <;> simp [State.encRun, UnitRun.pop]

/-- The decoder's part of an event without reset, as the command and then the pop. -/
theorem decTicked_of_not_rst {p : Pins} (hrst : p.rst = false) (s : State) :
    (decTicked (some p) s).decRun =
      let y : UnitRun _ _ := ⟨(decCommanded p s).dec, s.env.decStream⟩
      if s.dec.hasByte && p.outReady then y.pop else y := by
  simp only [decTicked, hrst, Bool.false_eq_true, if_false]
  split_ifs <;> simp [State.decRun, UnitRun.pop]

/-- Settles O33: the event is one unit's edge, and its command and pop give R66's queue by `pop_after_emit`. -/
theorem clockEdge : Obligations.ClockEdge := by
  unfold Obligations.ClockEdge
  constructor
  · intro s p rest hticks
    obtain ⟨t, hstep⟩ := exists_step s
    obtain ⟨hcfg, htail, -⟩ := step_frame hstep
    have hrun : t.encRun = (encTicked (some p) s).encRun := by
      rw [step_encRun hstep, encTicked_encRun, State.encPins, hticks]; rfl
    have hother : t.decRun = s.decRun := by
      rw [step_decRun hstep, State.decPins, hticks]; exact UnitKind.edge_none _ _
    refine ⟨t, hstep, hcfg, congrArg UnitRun.regs hother, congrArg UnitRun.stream hother, by rw [htail, hticks]; rfl,
      fun hrst => ?_, fun hrst => ?_⟩
    · simpa [encTicked, hrst] using congrArg UnitRun.regs hrun
    · obtain ⟨e, happend⟩ := encCommanded_appends p s
      obtain ⟨hregs, hstream⟩ := pop_after_emit happend p.outReady s.env.encStream
      rw [encTicked_of_not_rst hrst] at hrun
      exact ⟨_, e, exec_eq_encCommanded p s, happend, (congrArg UnitRun.regs hrun).trans hregs,
        (congrArg UnitRun.stream hrun).trans hstream⟩
  · intro s p rest hticks
    obtain ⟨t, hstep⟩ := exists_step s
    obtain ⟨hcfg, htail, -⟩ := step_frame hstep
    have hrun : t.decRun = (decTicked (some p) s).decRun := by
      rw [step_decRun hstep, decTicked_decRun, State.decPins, hticks]; rfl
    have hother : t.encRun = s.encRun := by
      rw [step_encRun hstep, State.encPins, hticks]; exact UnitKind.edge_none _ _
    refine ⟨t, hstep, hcfg, congrArg UnitRun.regs hother, congrArg UnitRun.stream hother, by rw [htail, hticks]; rfl,
      fun hrst => ?_, fun hrst => ?_⟩
    · simpa [decTicked, hrst] using congrArg UnitRun.regs hrun
    · obtain ⟨e, happend⟩ := decCommanded_appends p s
      obtain ⟨hregs, hstream⟩ := pop_after_emit happend p.outReady s.env.decStream
      rw [decTicked_of_not_rst hrst] at hrun
      exact ⟨_, e, exec_eq_decCommanded p s, happend, (congrArg UnitRun.regs hrun).trans hregs,
        (congrArg UnitRun.stream hrun).trans hstream⟩

/-! ### Both units at one event -/

/-- A state is its depths, its two units with their records, and the rest of the host's side. -/
theorem State.eq_of_units {s t : State} (hcfg : s.cfg = t.cfg) (henc : s.encRun = t.encRun) (hdec : s.decRun = t.decRun)
    (hticks : s.env.ticks = t.env.ticks) (hdraws : s.env.draws = t.env.draws) : s = t := by
  have henv : s.env = t.env :=
    Env.eq_of_fields hticks (congrArg UnitRun.stream henc) (congrArg UnitRun.stream hdec) hdraws
  have hregs : s.enc = t.enc := congrArg UnitRun.regs henc
  have hregs' : s.dec = t.dec := congrArg UnitRun.regs hdec
  cases s; cases t
  subst hcfg henv hregs hregs'
  rfl

theorem encTicked_decRun (e : Option Pins) (s : State) : (encTicked e s).decRun = s.decRun := by
  obtain ⟨-, hdec, -, hstream, -⟩ := encTicked_frame e s
  rw [State.decRun, hdec, hstream]; rfl

theorem decTicked_encRun (e : Option Pins) (s : State) : (decTicked e s).encRun = s.encRun := by
  obtain ⟨-, henc, -, hstream, -⟩ := decTicked_frame e s
  rw [State.encRun, henc, hstream]; rfl

/-- The two parts of an event commute (R56): each reads and writes its own unit alone. -/
theorem decTicked_encTicked_comm (e e' : Option Pins) (s : State) :
    decTicked e' (encTicked e s) = encTicked e (decTicked e' s) := by
  obtain ⟨hcfg, -, hticks, -, hdraws⟩ := encTicked_frame e s
  obtain ⟨hcfg', -, hticks', -, hdraws'⟩ := decTicked_frame e' s
  obtain ⟨hcfg₂, -, hticks₂, -, hdraws₂⟩ := decTicked_frame e' (encTicked e s)
  obtain ⟨hcfg₂', -, hticks₂', -, hdraws₂'⟩ := encTicked_frame e (decTicked e' s)
  refine State.eq_of_units (by rw [hcfg₂, hcfg, hcfg₂', hcfg']) ?enc ?dec
    (by rw [hticks₂, hticks, hticks₂', hticks']) (by rw [hdraws₂, hdraws, hdraws₂', hdraws'])
  case enc => rw [decTicked_encRun, encTicked_encRun, encTicked_encRun, decTicked_encRun, hcfg']
  case dec => rw [encTicked_decRun, decTicked_decRun, decTicked_decRun, encTicked_decRun, hcfg]

/-- Settles O34: both orders are the two parts of the event, which commute. -/
theorem simultaneousEdgesCommute : Obligations.SimultaneousEdgesCommute := by
  unfold Obligations.SimultaneousEdgesCommute
  refine fun s p q => ⟨?comm, fun rest hticks => ?step⟩
  case comm =>
    have hboth : andThen (encEdge p s) (decEdge q) = .next (decTicked (some q) (encTicked (some p) s)) := by
      rw [encEdge_eq, andThen_next, decEdge_eq]; rfl
    have hboth' : andThen (decEdge q s) (encEdge p) = .next (encTicked (some p) (decTicked (some q) s)) := by
      rw [decEdge_eq, andThen_next, encEdge_eq]; rfl
    rw [hboth, hboth', decTicked_encTicked_comm]
  case step =>
    simp only [step, clockStep, hticks]
    rfl

/-! ### The transaction level (R67) -/

theorem actions_append (as bs : List Action) (s : State) : actions (as ++ bs) s = (actions as s).bind (actions bs) := by
  induction as generalizing s with
  | nil => rfl
  | cons a as ih =>
    simp only [List.cons_append, actions]
    cases a.effect s with
    | none => rfl
    | some t => exact ih t

theorem actions_singleton (a : Action) (s : State) : actions [a] s = a.effect s := by
  simp [actions]

theorem encEffect_accept {s : State} (hready : s.encReady = true) (w : CmdWord) :
    (Action.accept .enc w).effect s = some (s.setEnc (encEffectOf (decode .enc w) s.enc)) := by
  simp [Action.effect, hready, exec_of_enc_ready, answered]

theorem decEffect_accept {s : State} (hready : s.decReady = true) (w : CmdWord) :
    (Action.accept .dec w).effect s = some (s.setDec (decEffectOf (decode .dec w) s.dec)) := by
  simp [Action.effect, hready, exec_of_dec_ready, answered]

theorem encEffect_pop {s : State} (hq : s.enc.outq ≠ []) : (Action.pop .enc).effect s = some s.encPop := by
  simp [Action.effect, hq]

theorem decEffect_pop {s : State} (hq : s.dec.outq ≠ []) : (Action.pop .dec).effect s = some s.decPop := by
  simp [Action.effect, hq]

/-- The command of an edge of the encoder is at most one action. -/
theorem actions_encCommanded (p : Pins) (s : State) :
    ∃ as : List Action, as.length ≤ 1 ∧ actions as s = some (encCommanded p s) := by
  unfold encCommanded
  split_ifs with haccept
  · obtain ⟨-, hready⟩ := Bool.and_eq_true_iff.mp haccept
    exact ⟨[.accept .enc p.cmd], Nat.le_refl 1, (actions_singleton _ s).trans (encEffect_accept hready p.cmd)⟩
  · exact ⟨[], Nat.zero_le 1, rfl⟩

/-- The encoder's part of an event is at most two actions: `Reset`, or `Accept` and then `Pop`, which is still enabled
because a command only appends to the queue. -/
theorem actions_encTicked (e : Option Pins) (s : State) :
    ∃ as : List Action, as.length ≤ 2 ∧ actions as s = some (encTicked e s) := by
  cases e with
  | none => exact ⟨[], Nat.zero_le 2, rfl⟩
  | some p =>
    obtain ⟨as, hlen, hact⟩ := actions_encCommanded p s
    simp only [encTicked]
    split_ifs with hrst hpop
    · exact ⟨[.reset .enc], Nat.le_succ 1, rfl⟩
    · obtain ⟨hbyte, -⟩ := Bool.and_eq_true_iff.mp hpop
      obtain ⟨e, happend⟩ := encCommanded_appends p s
      have hq : (encCommanded p s).enc.outq ≠ [] := by
        rw [happend]
        exact List.append_ne_nil_of_left_ne_nil ((s.enc.hasByte_iff).mp hbyte) e
      refine ⟨as ++ [.pop .enc], by simpa using hlen, ?_⟩
      rw [actions_append, hact, Option.bind_some, actions_singleton, encEffect_pop hq]
    · exact ⟨as, Nat.le_succ_of_le hlen, hact⟩

/-- The command of an edge of the decoder is at most one action. -/
theorem actions_decCommanded (p : Pins) (s : State) :
    ∃ as : List Action, as.length ≤ 1 ∧ actions as s = some (decCommanded p s) := by
  unfold decCommanded
  split_ifs with haccept
  · obtain ⟨-, hready⟩ := Bool.and_eq_true_iff.mp haccept
    exact ⟨[.accept .dec p.cmd], Nat.le_refl 1, (actions_singleton _ s).trans (decEffect_accept hready p.cmd)⟩
  · exact ⟨[], Nat.zero_le 1, rfl⟩

/-- The decoder's part of an event is at most two actions: `Reset`, or `Accept` and then `Pop`, which is still enabled
because a command only appends to the queue. -/
theorem actions_decTicked (e : Option Pins) (s : State) :
    ∃ as : List Action, as.length ≤ 2 ∧ actions as s = some (decTicked e s) := by
  cases e with
  | none => exact ⟨[], Nat.zero_le 2, rfl⟩
  | some p =>
    obtain ⟨as, hlen, hact⟩ := actions_decCommanded p s
    simp only [decTicked]
    split_ifs with hrst hpop
    · exact ⟨[.reset .dec], Nat.le_succ 1, rfl⟩
    · obtain ⟨hbyte, -⟩ := Bool.and_eq_true_iff.mp hpop
      obtain ⟨e, happend⟩ := decCommanded_appends p s
      have hq : (decCommanded p s).dec.outq ≠ [] := by
        rw [happend]
        exact List.append_ne_nil_of_left_ne_nil ((s.dec.hasByte_iff).mp hbyte) e
      refine ⟨as ++ [.pop .dec], by simpa using hlen, ?_⟩
      rw [actions_append, hact, Option.bind_some, actions_singleton, decEffect_pop hq]
    · exact ⟨as, Nat.le_succ_of_le hlen, hact⟩

/-- Every step is a sequence of actions, first the encoder's and then the decoder's. -/
theorem actions_of_step {s t : State} (hstep : step s = .next t) :
    ∃ as : List Action, as.length ≤ 4 ∧ actions as s.takeTick = some t := by
  obtain ⟨as, hlen, hact⟩ := actions_encTicked s.encPins s.takeTick
  obtain ⟨bs, hlen', hact'⟩ := actions_decTicked s.decPins (encTicked s.encPins s.takeTick)
  obtain rfl := Host.Outcome.next.inj ((step_eq s).symm.trans hstep)
  refine ⟨as ++ bs, by rw [List.length_append]; omega, ?_⟩
  rw [actions_append, hact, Option.bind_some, hact']

/-- The clock event of an action. -/
def Action.tick : Action → Tick
  | .reset u => tickOf u resetPins
  | .accept u w => presentTick u w
  | .pop u => tickOf u popPins

/-- An enabled action is the step at its clock event. -/
theorem step_pushTick_tick {a : Action} {s t : State} (h : a.effect s = some t) :
    step (s.pushTick a.tick) = .next { t with env := { t.env with draws := t.env.draws + 1 } } := by
  cases a with
  | reset u =>
    cases u with
    | enc =>
      cases h
      exact (step_of_encTick (s := s.pushTick (tickOf .enc resetPins)) rfl).trans (encEdge_of_rst rfl)
    | dec =>
      cases h
      exact (step_of_decTick (s := s.pushTick (tickOf .dec resetPins)) rfl).trans (decEdge_of_rst rfl)
  | accept u w =>
    rw [Action.tick, step_pushTick_presentTick]
    cases u with
    | enc =>
      have hready : s.encReady = true := by
        by_contra hbusy
        simp [Action.effect, hbusy] at h
      cases (encEffect_accept hready w).symm.trans h
      exact exec_of_enc_ready (decode_enc_unit w) hready
    | dec =>
      have hready : s.decReady = true := by
        by_contra hbusy
        simp [Action.effect, hbusy] at h
      cases (decEffect_accept hready w).symm.trans h
      exact exec_of_dec_ready (decode_dec_unit w) hready
  | pop u =>
    cases u with
    | enc =>
      have hq : s.enc.outq ≠ [] := by
        intro hempty
        simp [Action.effect, hempty] at h
      cases (encEffect_pop hq).symm.trans h
      exact (step_of_encTick (s := s.pushTick (tickOf .enc popPins)) rfl).trans (encEdge_of_pop rfl rfl rfl)
    | dec =>
      have hq : s.dec.outq ≠ [] := by
        intro hempty
        simp [Action.effect, hempty] at h
      cases (decEffect_pop hq).symm.trans h
      exact (step_of_decTick (s := s.pushTick (tickOf .dec popPins)) rfl).trans (decEdge_of_pop rfl rfl rfl)

/-- Settles O35: a step is the actions of its two parts, and an action is the step at its own event. -/
theorem transactionLevelEquivalence : Obligations.TransactionLevelEquivalence := by
  unfold Obligations.TransactionLevelEquivalence
  exact ⟨fun s t => actions_of_step, fun a s t h => ⟨a.tick, step_pushTick_tick h⟩⟩

end Sys2Proof.Machine
end
